-- ==== Sys2Proof/Word.lean ====
section
/-! DEFINITION. The words of the block: bytes and 16-bit bus addresses (00_scope.md R6). -/

namespace Sys2Proof

/-- A data byte, `u8`: bit 7 the most significant (R6). -/
abbrev Byte := BitVec 8

/-- A bus address, `u16` (R6). -/
abbrev Addr := BitVec 16

end Sys2Proof
end

