-- ==== Sys2Proof/Config.lean ====
section
/-! DEFINITION. What is fixed while the machine runs: the sizes its types are built from (00_scope.md R4), the
parameters the source leaves to the implementation or the platform as one record (R5), and the values no source gives,
as opaque constants. The numeric literals of R4 that only behaviour depends on, and the defaults of R5, stand in
Machine/Params.lean. -/

namespace Sys2Proof

/-- `ROWS` (R4). -/
abbrev gridRows : Nat := 24
/-- `COLS` (R4). -/
abbrev gridCols : Nat := 40
/-- `GLYPH_H` (R4); a row of a glyph is one byte, so `GLYPH_W` is 8 by the type of a row. -/
abbrev glyphRows : Nat := 8
/-- `GLYPHS` (R4). -/
abbrev glyphCount : Nat := 256

/-- One half of the PIA (R11). -/
inductive Section where
  | a | b
  deriving DecidableEq, Repr

/-- The state of a control line: `fall` the low level, `rise` the high one (R7). -/
inductive Signal where
  | fall | rise
  deriving DecidableEq, Repr

/-- What control line 2 is configured to do (10_state.md R27). -/
inductive C2Mode where
  /-- an interrupt input with its active edge and its enable -/
  | input (edge : Signal) (irq2En : Bool)
  /-- an output held at a level -/
  | manual (level : Signal)
  /-- an output: drops on a write, raised by line 1 -/
  | handshake
  /-- an output: drops and rises on a write -/
  | pulse
  deriving DecidableEq, Repr

/-- The decoded configuration of a section (10_state.md R27). -/
structure Cfg where
  irq1En   : Bool
  c1Edge   : Signal
  portMode : Bool
  c2Mode   : C2Mode
  deriving DecidableEq, Repr

/-- A ROM image: its base address and its bytes (10_state.md R31). -/
structure RomImage where
  base  : Addr
  bytes : List Byte
  deriving DecidableEq, Repr

/-- An 8 by 8 bitmap, row 0 the top; bit 7 of a row is its leftmost pixel (10_state.md R37, 42_terminal.md R141). -/
abbrev Glyph := Vector Byte glyphRows

/-- A loaded glyph table (10_state.md R37). -/
abbrev GlyphTable := Vector Glyph glyphCount

/-- A key table: a partial function from key identifiers to codes, as pairs; the first pair of a key counts
(10_state.md R39; a key identifier is a number, log 10). -/
abbrev Keymap := List (Nat × Byte)

/-- Where an interrupt request of a section is forwarded to (R5, `IRQ_ROUTING`). -/
inductive IrqRoute where
  | none | irq | nmi
  deriving DecidableEq, Repr

/-- `IRQ_ROUTING`: one route for each section (R5). -/
structure IrqRouting where
  a : IrqRoute
  b : IrqRoute
  deriving DecidableEq, Repr

/-- The parameters of 00_scope.md R5. No operation changes them (log 11). -/
structure Config where
  /-- `ROM_IMAGES` as installed, in insertion order -/
  romImages         : List RomImage
  /-- `ROM_WRITABLE` (D13) -/
  romWritable       : Bool
  /-- `ROM_VECTOR_TRUNCATE` (D14) -/
  romVectorTruncate : Bool
  /-- `RAM_INIT` (D5): a whole RAM contents, in the form of Machine/Memory.lean -/
  ramInit           : List Host.Cell
  /-- `CFG_LAYOUT` (D1, D2): the decoded configuration of each of the 64 values of `CR[5:0]` -/
  cfgLayout         : Vector Cfg 64
  /-- `RESET_LINE` (D4) -/
  resetLine         : Signal
  /-- `GLYPH` (D12): the normal glyph table, loaded -/
  glyph             : GlyphTable
  /-- `KEYMAP_UNSHIFTED` (D26) -/
  keymapUnshifted   : Keymap
  /-- `KEYMAP_SHIFTED` (D26) -/
  keymapShifted     : Keymap
  /-- `IRQ_ROUTING` (D21) -/
  irqRouting        : IrqRouting
  /-- `QUEUE_CAP` (D9): `none` is unbounded -/
  queueCap          : Option Nat
  deriving DecidableEq, Repr

/-- FREE VALUE. The glyph table a machine is loaded with: an OPEN parameter, no bitmap is in the source (R5, N7; log 9). -/
opaque Config.openGlyph : GlyphTable

/-- FREE VALUE. The unshifted key table a machine is loaded with: an OPEN parameter (R5, N28; log 10). -/
opaque Config.openKeymapUnshifted : Keymap

/-- FREE VALUE. The shifted key table a machine is loaded with: an OPEN parameter (R5, N28; log 10). -/
opaque Config.openKeymapShifted : Keymap

/-- FREE VALUE. The terminal queue after a byte arrived at a full queue of a platform that set `QUEUE_CAP`: that
behaviour is the platform's own to define (D9, U13; log 12). Never used while the queue is unbounded. -/
opaque Config.queueOverflow : List Byte → Byte → List Byte

end Sys2Proof
end

