-- ==== Sys2Proof/Machine/Flags.lean ====
section
/-! DEFINITION. The fields of a PIA control register: the two interrupt flag bits, the six configuration bits, their
decoding and the interrupt level (10_state.md R25 to R28, 40_pia.md R91). Pure functions of a byte. -/

namespace Sys2Proof.Machine

/-- The mask of the two flag bits of a control register (10_state.md R25). -/
def flagMask : Byte := 0xC0
/-- The mask of the six writable configuration bits (10_state.md R25). -/
def configMask : Byte := 0x3F
/-- IRQ flag 1, control line 1 (10_state.md R26, D1). -/
def flag1Bit : Byte := 0x80
/-- IRQ flag 2, control line 2 (10_state.md R26, D1). -/
def flag2Bit : Byte := 0x40

/-- `CR[7]` (R26). -/
def flag1 (cr : Byte) : Bool := cr &&& flag1Bit != 0
/-- `CR[6]` (R26). -/
def flag2 (cr : Byte) : Bool := cr &&& flag2Bit != 0
/-- `CR[7] <- 1` (40_pia.md R99). -/
def setFlag1 (cr : Byte) : Byte := cr ||| flag1Bit
/-- `CR[6] <- 1` (40_pia.md R100). -/
def setFlag2 (cr : Byte) : Byte := cr ||| flag2Bit
/-- Both flags cleared, the configuration kept (40_pia.md R92). -/
def clearFlags (cr : Byte) : Byte := cr &&& configMask
/-- A control-register write: the flags kept, `data[5:0]` stored (30_encoding.md R75). -/
def writeConfig (cr data : Byte) : Byte := (cr &&& flagMask) ||| (data &&& configMask)

/-- The signal a configuration bit selects: 0 `Fall`, 1 `Rise` (10_state.md R28, D1). -/
def edgeOfBit (b : Bool) : Signal := if b then .rise else .fall

/-- `CFG_LAYOUT` with the default bit positions (10_state.md R28, D1, D2; log 7). -/
def standardCfg (c : BitVec 6) : Cfg :=
  { irq1En   := c.getLsbD 0
    c1Edge   := edgeOfBit (c.getLsbD 1)
    portMode := c.getLsbD 2
    c2Mode   :=
      if !c.getLsbD 5 then .input (edgeOfBit (c.getLsbD 4)) (c.getLsbD 3)
      else if c.getLsbD 4 then .manual (edgeOfBit (c.getLsbD 3))
      else if !c.getLsbD 3 then .handshake
      else .pulse }

/-- The default layout as a table of the 64 configuration values. -/
def standardLayout : Vector Cfg 64 := Vector.ofFn fun i => standardCfg (BitVec.ofNat 6 i.val)

/-- `CFG_LAYOUT(CR[5:0])` under a layout (10_state.md R27). -/
def decodeCfg (layout : Vector Cfg 64) (cr : Byte) : Cfg := layout[(cr.setWidth 6).toNat]'((cr.setWidth 6).isLt)

/-- `IrqLevel`: some pending flag of the section is enabled (40_pia.md R91). -/
def irqLevelOf (cfg : Cfg) (cr : Byte) : Bool :=
  (flag1 cr && cfg.irq1En) ||
  (flag2 cr && match cfg.c2Mode with
    | .input _ irq2En => irq2En
    | .manual _ => false
    | .handshake => false
    | .pulse => false)

end Sys2Proof.Machine
end

