-- ==== Sys2Proof/Machine/Params.lean ====
section
/-! DEFINITION. The numeric literals of 00_scope.md R4, each in one place, and the defaults of the parameters of R5. -/

namespace Sys2Proof.Machine

/-- `PIA_FIRST` (R4). -/
def piaFirst : Nat := 0xD010
/-- `PIA_LAST`, inclusive (R4). -/
def piaLast : Nat := 0xD01F
/-- `CR_CODE` (R4). -/
def crCode : Nat := 0x0D
/-- `FOLD_LO` (R4). -/
def foldLo : Nat := 0x61
/-- `FOLD_HI` (R4). -/
def foldHi : Nat := 0x7A
/-- `FOLD_MASK` (R4). -/
def foldMask : Byte := 0x5F
/-- `PRINT_LO` (R4). -/
def printLo : Nat := 0x20
/-- `PRINT_HI` (R4). -/
def printHi : Nat := 0x5F
/-- `KEY_LO` (R4). -/
def keyLo : Nat := 0x01
/-- `KEY_HI` (R4). -/
def keyHi : Nat := 0x5F
/-- `KEY_BIT7` (R4). -/
def keyBit7 : Byte := 0x80
/-- The first of the `VECTOR_BYTES` = 6 top bytes of the space (R4, 20_memory.md R51). -/
def vectorFirst : Nat := 0xFFFA
/-- The code a blank cell of the grid stores (10_state.md R41, 42_terminal.md R137, R140). -/
def spaceCode : Byte := 0x20
/-- What `OR`, `IR`, `DDR` and `CR` hold after a PIA reset (70_reset_and_hazards.md R182, D3; log 5). -/
def resetRegister : Byte := 0x00

/-- The width of the surface in pixels (42_terminal.md R142). -/
def surfaceWidth : Nat := gridCols * 8
/-- The height of the surface in pixels (42_terminal.md R142). -/
def surfaceHeight : Nat := gridRows * glyphRows

/-- The parameters of State.reset: the defaults of R5; where R5 gives none, no image is installed (log 8) and the glyph
and key tables are opaque constants (logs 9, 10). -/
def defaultConfig : Config :=
  { romImages         := []
    romWritable       := false
    romVectorTruncate := false
    ramInit           := []
    cfgLayout         := standardLayout
    resetLine         := .fall
    glyph             := Config.openGlyph
    keymapUnshifted   := Config.openKeymapUnshifted
    keymapShifted     := Config.openKeymapShifted
    irqRouting        := { a := .none, b := .none }
    queueCap          := none }

end Sys2Proof.Machine
end

