-- ==== Sys2Proof/Syntax.lean ====
section
/-! DEFINITION. The operations of the block's interface: one constructor for each row of spec/opcode_table.json
(30_encoding.md R70, R84). An "instruction" of this hardware is one operation (00_scope.md R9). -/

namespace Sys2Proof

/-- A key-down event: an abstract key identifier and the shift modifier (30_encoding.md R77; log 10). -/
structure KeyEvent where
  key   : Nat
  shift : Bool
  deriving DecidableEq, Repr

/-- The operations. A bus access names the row of the table its address matches; which store answers it is settled
when it runs (30_encoding.md R71, R74; log 2). -/
inductive Instr where
  -- bus accesses: the ROM rows
  | busRdRom    (addr : Addr) (readOnly : Bool)
  | busWrRom    (addr : Addr) (data : Byte)
  -- bus reads of the PIA window
  | busRdPortA  (addr : Addr) (readOnly : Bool)
  | busRdCtrlA  (addr : Addr) (readOnly : Bool)
  | busRdPortB  (addr : Addr) (readOnly : Bool)
  | busRdCtrlB  (addr : Addr) (readOnly : Bool)
  -- bus writes of the PIA window
  | busWrOutA   (addr : Addr) (data : Byte)
  | busWrDdrA   (addr : Addr) (data : Byte)
  | busWrCtrlA  (addr : Addr) (data : Byte)
  | busWrOutB   (addr : Addr) (data : Byte)
  | busWrDdrB   (addr : Addr) (data : Byte)
  | busWrCtrlB  (addr : Addr) (data : Byte)
  -- bus accesses: the RAM rows
  | busRdRam    (addr : Addr) (readOnly : Bool)
  | busWrRam    (addr : Addr) (data : Byte)
  -- the system driver's operations
  | busClk
  | busRst
  | busRomLow
  | busRomHigh
  | busPeek     (addr : Addr)
  -- ROM image probes; `image` is the image's place in insertion order
  | romProbeRd  (image : Nat) (addr : Addr)
  | romProbeWr  (image : Nat) (addr : Addr) (data : Byte)
  -- the PIA's inspection path and port side
  | piaPeek     (sel : BitVec 2)
  | piaSetIn    (sec : Section) (v : Byte)
  | piaSetC1    (sec : Section) (sig : Signal)
  | piaSetC2    (sec : Section) (sig : Signal)
  -- the terminal
  | termEnq     (v : Byte)
  | termStep
  | termDrain
  | termClear
  -- the keyboard
  | keyDown     (key : Nat) (shift : Bool)
  | keyBatch    (events : List KeyEvent)
  -- power-on and system reset
  | sysPowerOn
  | sysReset
  deriving DecidableEq, Repr

end Sys2Proof
end

