-- ==== Sys2Proof/Machine/Operands.lean ====
section
/-! DEFINITION. The operand forms: the fields of an address inside the PIA window and the selector table
(30_encoding.md R71 to R73), which addresses a ROM image claims and what a probe of it gives (41_bus.md R110 to R112),
the port value (10_state.md R24), the terminal's byte classes (30_encoding.md R79), the key tables (43_keyboard.md
R150) and the glyph file (42_terminal.md R141). Pure functions. -/

namespace Sys2Proof.Machine

/-! ## Addresses -/

/-- The address is in the PIA register window (30_encoding.md R71). -/
def inWindow (addr : Addr) : Bool := decide (piaFirst ≤ addr.toNat) && decide (addr.toNat ≤ piaLast)

/-- The register selector, `address & 0x3` (30_encoding.md R72). -/
def selector (addr : Addr) : BitVec 2 := addr.setWidth 2

/-- `Section(sel)`: A if `sel[1] = 0`, else B (30_encoding.md R73). -/
def sectionOf (sel : BitVec 2) : Section := if sel.getLsbD 1 then .b else .a

/-- `IsData(sel)`: the data register when `sel[0] = 0` (30_encoding.md R73). -/
def isData (sel : BitVec 2) : Bool := !sel.getLsbD 0

/-- The address lies in the window with this selector: `addr & 0xFFF3 = 0xD010 + sel` (30_encoding.md R72). -/
def windowRow (addr : Addr) (sel : BitVec 2) : Bool := inWindow addr && (selector addr == sel)

/-! ## ROM images -/

/-- `base + len <= 0x10000` (10_state.md R31, 41_bus.md R119). -/
def imageValid (img : RomImage) : Bool := decide (img.base.toNat + img.bytes.length ≤ 0x10000)

/-- `EffLen(img)` (41_bus.md R110); a natural difference is never below zero. -/
def effLen (truncate : Bool) (img : RomImage) : Nat :=
  if truncate then min img.bytes.length (vectorFirst - img.base.toNat) else img.bytes.length

/-- `Claims(img, a)`, in the naturals (41_bus.md R110). -/
def claims (truncate : Bool) (img : RomImage) (addr : Addr) : Bool :=
  decide (img.base.toNat ≤ addr.toNat) && decide (addr.toNat < img.base.toNat + effLen truncate img)

/-- `ROM.PROBE_RD`: the byte, or `none` for "not mine" (41_bus.md R111). -/
def probeRead (truncate : Bool) (img : RomImage) (addr : Addr) : Option Byte :=
  if claims truncate img addr then img.bytes[addr.toNat - img.base.toNat]? else none

/-- The image after an accepted `ROM.PROBE_WR`: the byte is stored only in a writable image (41_bus.md R112). -/
def storeInImage (writable : Bool) (img : RomImage) (addr : Addr) (data : Byte) : RomImage :=
  if writable then { img with bytes := img.bytes.set (addr.toNat - img.base.toNat) data } else img

/-- `ROM.PROBE_WR`: the image after an accepted write, or `none` for "rejected" (41_bus.md R112). -/
def probeWrite (truncate writable : Bool) (img : RomImage) (addr : Addr) (data : Byte) : Option RomImage :=
  if claims truncate img addr then some (storeInImage writable img addr data) else none

/-- The first image in insertion order that answers a read (41_bus.md R113). -/
def romRead (truncate : Bool) (roms : List RomImage) (addr : Addr) : Option Byte :=
  roms.findSome? fun img => probeRead truncate img addr

/-- The images after the first one in insertion order that accepts the write has taken it; `none` if all reject
(41_bus.md R114). -/
def romWrite (truncate writable : Bool) : List RomImage → Addr → Byte → Option (List RomImage)
  | [], _, _ => none
  | img :: rest, addr, data =>
    match probeWrite truncate writable img addr data with
    | some img' => some (img' :: rest)
    | none => (romWrite truncate writable rest addr data).map (img :: ·)

/-- Some image claims the address. -/
def romClaims (truncate : Bool) (roms : List RomImage) (addr : Addr) : Bool :=
  roms.any fun img => claims truncate img addr

/-- The one store that answers an access (30_encoding.md R71). -/
inductive Target where
  /-- image number `image` in insertion order, at `offset` from its base -/
  | rom (image : Nat) (offset : Nat)
  | pia (sel : BitVec 2)
  | ram (addr : Addr)
  deriving DecidableEq, Repr

/-- The images from number `k` on: the first that claims the address, with the offset. -/
def firstClaim (truncate : Bool) (addr : Addr) : Nat → List RomImage → Option (Nat × Nat)
  | _, [] => none
  | k, img :: rest =>
    if claims truncate img addr then some (k, addr.toNat - img.base.toNat) else firstClaim truncate addr (k + 1) rest

/-- `Resolve(addr)`: images in insertion order, then the window, then RAM (30_encoding.md R71). -/
def resolve (truncate : Bool) (roms : List RomImage) (addr : Addr) : Target :=
  match firstClaim truncate addr 0 roms with
  | some (k, off) => .rom k off
  | none => if inWindow addr then .pia (selector addr) else .ram addr

/-- `NonEmpty`: the images that claim something (41_bus.md R117). -/
def nonEmptyImages (truncate : Bool) (roms : List RomImage) : List RomImage :=
  roms.filter fun img => decide (0 < effLen truncate img)

/-- `BUS.ROMLOW`: the lowest base of an image that claims something (41_bus.md R117). -/
def romLow (truncate : Bool) (roms : List RomImage) : Option Nat :=
  ((nonEmptyImages truncate roms).map fun img => img.base.toNat).min?

/-- `BUS.ROMHIGH`: the highest address an image claims (41_bus.md R117). -/
def romHigh (truncate : Bool) (roms : List RomImage) : Option Nat :=
  ((nonEmptyImages truncate roms).map fun img => img.base.toNat + effLen truncate img - 1).max?

/-! ## The port value -/

/-- `Port(s)`: each bit from the output register where the direction bit is 1, else from the input register
(10_state.md R24). -/
def portOf (outReg inReg ddr : Byte) : Byte := (outReg &&& ddr) ||| (inReg &&& ~~~ddr)

/-! ## The terminal's bytes -/

/-- Step 1 of the terminal's state machine: fold lowercase to uppercase (42_terminal.md R133). -/
def foldByte (b : Byte) : Byte := if foldLo ≤ b.toNat ∧ b.toNat ≤ foldHi then b &&& foldMask else b

/-- The classes of a folded byte (30_encoding.md R79). -/
inductive ByteClass where
  | cr | print | ignored
  deriving DecidableEq, Repr

/-- The code is in the printable range (42_terminal.md R135). -/
def printable (b : Byte) : Bool := decide (printLo ≤ b.toNat) && decide (b.toNat ≤ printHi)

/-- The class of a byte that step 1 has folded (30_encoding.md R79). -/
def byteClass (b : Byte) : ByteClass :=
  if b.toNat = crCode then .cr else if printable b then .print else .ignored

/-! ## The keyboard's codes -/

/-- `Lookup(key, shift)`: one table only, chosen by the shift modifier (43_keyboard.md R150). -/
def lookupKey (cfg : Config) (key : Nat) (shift : Bool) : Option Byte :=
  (if shift then cfg.keymapShifted else cfg.keymapUnshifted).lookup key

/-- The code is in the range the keyboard accepts (30_encoding.md R78). -/
def keyCodeOk (c : Byte) : Bool := decide (keyLo ≤ c.toNat) && decide (c.toNat ≤ keyHi)

/-- The code of a key event that is found and in range (43_keyboard.md R150, R151). -/
def acceptedCode (cfg : Config) (key : Nat) (shift : Bool) : Option Byte :=
  (lookupKey cfg key shift).filter keyCodeOk

/-- The first event of a batch that matches (43_keyboard.md R153, D25). -/
def firstMatch (cfg : Config) (events : List KeyEvent) : Option Byte :=
  events.findSome? fun e => acceptedCode cfg e.key e.shift

/-- The byte latched for a code: bit 7 always high (30_encoding.md R78). -/
def latchedCode (c : Byte) : Byte := c ||| keyBit7

/-! ## Glyphs -/

/-- The glyph of a code. -/
def glyphOf (table : GlyphTable) (code : Byte) : Glyph := table[code.toNat]'(code.isLt)

/-- `GLYPH_INV`: every pixel complemented (10_state.md R37). -/
def invertGlyph (g : Glyph) : Glyph := Vector.ofFn fun r => ~~~g[r]

/-- A cell with all 64 pixels 0 (42_terminal.md R131, D11). -/
def blankGlyph : Glyph := Vector.replicate glyphRows 0

/-- Pixel `(r, k)` of a block, column 0 the leftmost (10_state.md R37, R38). -/
def glyphPixel (g : Glyph) (r : Fin glyphRows) (k : Fin 8) : Bool := g[r].getLsbD (7 - k.val)

/-- A row of the glyph file as it is loaded: the file's least significant bit is the leftmost pixel, so the row is the
byte reversed (42_terminal.md R141, C2, D12). -/
def loadRow (f : Byte) : Byte := f.reverse

/-- The glyph table of a glyph file: glyph `v` is file bytes `8*v .. 8*v + 7`, top row first (42_terminal.md R141). -/
def loadGlyphs (file : Vector Byte (glyphCount * glyphRows)) : GlyphTable :=
  Vector.ofFn fun v => Vector.ofFn fun r =>
    loadRow (file[glyphRows * v.val + r.val]'(by
      have hv := v.isLt; have hr := r.isLt; simp only [glyphCount, glyphRows] at *; omega))

end Sys2Proof.Machine
end

