-- ==== Sys2Proof/WellFormed.lean ====
section
/-! DEFINITION. Which terms of Instr an operation record can stand for: a bus access names a row its address matches
(the match and mask columns of spec/opcode_table.json, 30_encoding.md R72, R84), and an image number or key identifier
fits the record (log 1, log 10). The meanings do not rest on it: they are total (60_exceptions.md R160). -/

namespace Sys2Proof

open Sys2Proof.Machine

/-- The operation is one its record can hold, and a bus access names a row its address matches. -/
def Instr.wellFormed : Instr → Bool
  | .busRdRom _ _        => true
  | .busWrRom _ _        => true
  | .busRdPortA addr _   => windowRow addr 0
  | .busRdCtrlA addr _   => windowRow addr 1
  | .busRdPortB addr _   => windowRow addr 2
  | .busRdCtrlB addr _   => windowRow addr 3
  | .busWrOutA addr _    => windowRow addr 0
  | .busWrDdrA addr _    => windowRow addr 0
  | .busWrCtrlA addr _   => windowRow addr 1
  | .busWrOutB addr _    => windowRow addr 2
  | .busWrDdrB addr _    => windowRow addr 2
  | .busWrCtrlB addr _   => windowRow addr 3
  | .busRdRam addr _     => !inWindow addr
  | .busWrRam addr _     => !inWindow addr
  | .busClk              => true
  | .busRst              => true
  | .busRomLow           => true
  | .busRomHigh          => true
  | .busPeek _           => true
  | .romProbeRd image _  => decide (image < 0x10000)
  | .romProbeWr image _ _ => decide (image < 0x10000)
  | .piaPeek _           => true
  | .piaSetIn _ _        => true
  | .piaSetC1 _ _        => true
  | .piaSetC2 _ _        => true
  | .termEnq _           => true
  | .termStep            => true
  | .termDrain           => true
  | .termClear           => true
  | .keyDown key _       => decide (key < 0x10000)
  | .keyBatch events     => events.all fun e => decide (e.key < 0x10000)
  | .sysPowerOn          => true
  | .sysReset            => true

end Sys2Proof
end

