-- ==== Sys2Proof/Decode.lean ====
section
/-! DEFINITION. The records of operations: decoding, total on any bytes and rejecting by name, and the encoder.

The spec gives no instruction words (30_encoding.md, opening). What it does encode is kept bit for bit: the first two
bytes of a record are the 16-bit bus address of the opcode table's match and mask columns (address bits 7:0 first, as
the table numbers its bits), and a bus access is the tuple of kind, address and data of 95_test_vectors.md section 3.
The rest of the record is the model's own (log 1):

    byte 0, 1   the address; 0 for an operation that has none
    byte 2      the kind
    byte 3..5   the operands, 0 where the operation has none

KEY.BATCH goes on in three-byte groups until a group of zeros: 1 or 2 for an unshifted or a shifted event, then its
key identifier, low byte first. -/

namespace Sys2Proof

open Sys2Proof.Machine

/-- Why bytes are not the record of an operation. Raised by the decoder; none of it is in the spec (log 20). -/
inductive DecodeError where
  /-- fewer bytes than the record has -/
  | truncated
  /-- no operation has this kind byte -/
  | unknownKind (kind : Byte)
  /-- a bit that the record of this operation holds at zero is set -/
  | strayBits
  /-- an operand byte that should be a Boolean, a section, a signal, a selector or an event mark is none -/
  | badOperand (v : Byte)
  /-- a direction-register write at an address outside its rows -/
  | notADirectionRow (addr : Addr)
  deriving DecidableEq, Repr

/-- What the decoder answers: an operation and the bytes after it, or a rejection by name. -/
inductive Decoded where
  | ok (i : Instr) (rest : List Byte)
  | reject (e : DecodeError)
  deriving DecidableEq, Repr

/-! ## Operand bytes -/

/-- A Boolean as a byte. -/
def boolByte (b : Bool) : Byte := if b then 1 else 0
/-- A byte as a Boolean. -/
def byteBool (v : Byte) : Option Bool := if v = 0 then some false else if v = 1 then some true else none
/-- A section as a byte: `A` = 0, `B` = 1 (30_encoding.md R77). -/
def sectionByte : Section → Byte
  | .a => 0
  | .b => 1
/-- A byte as a section. -/
def byteSection (v : Byte) : Option Section := if v = 0 then some .a else if v = 1 then some .b else none
/-- A signal as a byte: `Fall` = 0, `Rise` = 1 (00_scope.md R7, D1). -/
def signalByte : Signal → Byte
  | .fall => 0
  | .rise => 1
/-- A byte as a signal. -/
def byteSignal (v : Byte) : Option Signal := if v = 0 then some .fall else if v = 1 then some .rise else none
/-- A byte as a register selector. -/
def byteSelector (v : Byte) : Option (BitVec 2) := if v.toNat < 4 then some (v.setWidth 2) else none
/-- The low byte of a 16-bit number. -/
def lowByte (n : Nat) : Byte := BitVec.ofNat 8 n
/-- The high byte of a 16-bit number. -/
def highByte (n : Nat) : Byte := BitVec.ofNat 8 (n / 256)
/-- The number of a low and a high byte. -/
def wordOf (lo hi : Byte) : Nat := lo.toNat + 256 * hi.toNat

/-! ## Decoding -/

/-- The row a bus read at an address names, by the table's match and mask (30_encoding.md R84). -/
def busRdRow (addr : Addr) (readOnly : Bool) : Instr :=
  if inWindow addr then
    match sectionOf (selector addr), isData (selector addr) with
    | .a, true  => .busRdPortA addr readOnly
    | .a, false => .busRdCtrlA addr readOnly
    | .b, true  => .busRdPortB addr readOnly
    | .b, false => .busRdCtrlB addr readOnly
  else .busRdRam addr readOnly

/-- The row a bus write at an address names, the output-register row for an even selector (30_encoding.md R84). -/
def busWrRow (addr : Addr) (data : Byte) : Instr :=
  if inWindow addr then
    match sectionOf (selector addr), isData (selector addr) with
    | .a, true  => .busWrOutA addr data
    | .a, false => .busWrCtrlA addr data
    | .b, true  => .busWrOutB addr data
    | .b, false => .busWrCtrlB addr data
  else .busWrRam addr data

/-- The direction-register row a bus write at an address names, if it has one (30_encoding.md R84). -/
def busWrDdrRow (addr : Addr) (data : Byte) : Option Instr :=
  if inWindow addr && isData (selector addr) then
    match sectionOf (selector addr) with
    | .a => some (.busWrDdrA addr data)
    | .b => some (.busWrDdrB addr data)
  else none

/-- An operation whose record must hold zeros in its other bytes. -/
def accept (zeros : Bool) (i : Instr) (rest : List Byte) : Decoded :=
  if zeros then .ok i rest else .reject .strayBits

/-- An operation built from an operand byte that not every value of is one. -/
def acceptOperand {α : Type} (v : Byte) (parsed : Option α) (zeros : Bool) (i : α → Instr) (rest : List Byte) : Decoded :=
  match parsed with
  | some x => accept zeros (i x) rest
  | none => .reject (.badOperand v)

/-- An operation on a control line, of a section byte and a signal byte. -/
def acceptLine (p q : Byte) (zeros : Bool) (i : Section → Signal → Instr) (rest : List Byte) : Decoded :=
  match byteSection p with
  | none => .reject (.badOperand p)
  | some s => acceptOperand q (byteSignal q) zeros (fun sig => i s sig) rest

/-- The events of a batch, in front of events already read. -/
def consEvent (e : KeyEvent) : Except DecodeError (List KeyEvent × List Byte) → Except DecodeError (List KeyEvent × List Byte)
  | .ok (es, rest) => .ok (e :: es, rest)
  | .error err => .error err

/-- The events of a batch and the bytes after its closing group. -/
def decodeEvents : List Byte → Except DecodeError (List KeyEvent × List Byte)
  | mark :: lo :: hi :: rest =>
    if mark = 0 then (if lo = 0 ∧ hi = 0 then .ok ([], rest) else .error .strayBits)
    else if mark = 1 then consEvent { key := wordOf lo hi, shift := false } (decodeEvents rest)
    else if mark = 2 then consEvent { key := wordOf lo hi, shift := true } (decodeEvents rest)
    else .error (.badOperand mark)
  | _ => .error .truncated

/-- A batch from its events. -/
def acceptEvents : Except DecodeError (List KeyEvent × List Byte) → Decoded
  | .ok (es, rest) => .ok (.keyBatch es) rest
  | .error e => .reject e

/-- The operation of a record with this address, kind and operand bytes. DESIGN CHOICE (log 27): the operations of kind
int that are rows of the opcode table, ROM.PROBE_RD, ROM.PROBE_WR, PIA.PEEK and TERM.ENQ, have records too; PIA.RD and
PIA.WR have none, being no rows of it but what a bus access runs (30_encoding.md R70). -/
def decodeRecord (addr : Addr) (kind p q r : Byte) (rest : List Byte) : Decoded :=
  match kind.toNat with
  | 0x00 => acceptOperand p (byteBool p) (q == 0 && r == 0) (fun ro => busRdRow addr ro) rest
  | 0x01 => accept (q == 0 && r == 0) (busWrRow addr p) rest
  | 0x02 => acceptOperand p (byteBool p) (q == 0 && r == 0) (fun ro => .busRdRom addr ro) rest
  | 0x03 => accept (q == 0 && r == 0) (.busWrRom addr p) rest
  | 0x04 =>
    match busWrDdrRow addr p with
    | some i => accept (q == 0 && r == 0) i rest
    | none => .reject (.notADirectionRow addr)
  | 0x05 => accept (addr == 0 && p == 0 && q == 0 && r == 0) .busClk rest
  | 0x06 => accept (addr == 0 && p == 0 && q == 0 && r == 0) .busRst rest
  | 0x07 => accept (addr == 0 && p == 0 && q == 0 && r == 0) .busRomLow rest
  | 0x08 => accept (addr == 0 && p == 0 && q == 0 && r == 0) .busRomHigh rest
  | 0x09 => accept (p == 0 && q == 0 && r == 0) (.busPeek addr) rest
  | 0x0A => accept (r == 0) (.romProbeRd (wordOf p q) addr) rest
  | 0x0B => .ok (.romProbeWr (wordOf p q) addr r) rest
  | 0x0C => acceptOperand p (byteSelector p) (addr == 0 && q == 0 && r == 0) (fun sel => .piaPeek sel) rest
  | 0x0D => acceptOperand p (byteSection p) (addr == 0 && r == 0) (fun s => .piaSetIn s q) rest
  | 0x0E => acceptLine p q (addr == 0 && r == 0) (fun s sig => .piaSetC1 s sig) rest
  | 0x0F => acceptLine p q (addr == 0 && r == 0) (fun s sig => .piaSetC2 s sig) rest
  | 0x10 => accept (addr == 0 && q == 0 && r == 0) (.termEnq p) rest
  | 0x11 => accept (addr == 0 && p == 0 && q == 0 && r == 0) .termStep rest
  | 0x12 => accept (addr == 0 && p == 0 && q == 0 && r == 0) .termDrain rest
  | 0x13 => accept (addr == 0 && p == 0 && q == 0 && r == 0) .termClear rest
  | 0x14 => acceptOperand r (byteBool r) (addr == 0) (fun shift => .keyDown (wordOf p q) shift) rest
  | 0x15 => if addr == 0 then acceptEvents (decodeEvents (p :: q :: r :: rest)) else .reject .strayBits
  | 0x16 => accept (addr == 0 && p == 0 && q == 0 && r == 0) .sysPowerOn rest
  | 0x17 => accept (addr == 0 && p == 0 && q == 0 && r == 0) .sysReset rest
  | _ => .reject (.unknownKind kind)

/-- The operation whose record stands at the head of the bytes, and the bytes after it. -/
def decode : List Byte → Decoded
  | lo :: hi :: kind :: p :: q :: r :: rest => decodeRecord (hi ++ lo) kind p q r rest
  | _ => .reject .truncated

/-! ## Encoding -/

/-- A record of an address, a kind and three operand bytes. -/
def record (addr : Addr) (kind p q r : Byte) : List Byte := [addr.setWidth 8, (addr >>> 8).setWidth 8, kind, p, q, r]

/-- The groups of a batch's events, the closing group last. -/
def encodeEvents : List KeyEvent → List Byte
  | [] => [0, 0, 0]
  | e :: es => (if e.shift then 2 else 1) :: lowByte e.key :: highByte e.key :: encodeEvents es

/-- The record of an operation. -/
def encode : Instr → List Byte
  | .busRdPortA addr ro     => record addr 0x00 (boolByte ro) 0 0
  | .busRdCtrlA addr ro     => record addr 0x00 (boolByte ro) 0 0
  | .busRdPortB addr ro     => record addr 0x00 (boolByte ro) 0 0
  | .busRdCtrlB addr ro     => record addr 0x00 (boolByte ro) 0 0
  | .busRdRam addr ro       => record addr 0x00 (boolByte ro) 0 0
  | .busWrOutA addr data    => record addr 0x01 data 0 0
  | .busWrCtrlA addr data   => record addr 0x01 data 0 0
  | .busWrOutB addr data    => record addr 0x01 data 0 0
  | .busWrCtrlB addr data   => record addr 0x01 data 0 0
  | .busWrRam addr data     => record addr 0x01 data 0 0
  | .busRdRom addr ro       => record addr 0x02 (boolByte ro) 0 0
  | .busWrRom addr data     => record addr 0x03 data 0 0
  | .busWrDdrA addr data    => record addr 0x04 data 0 0
  | .busWrDdrB addr data    => record addr 0x04 data 0 0
  | .busClk                 => record 0 0x05 0 0 0
  | .busRst                 => record 0 0x06 0 0 0
  | .busRomLow              => record 0 0x07 0 0 0
  | .busRomHigh             => record 0 0x08 0 0 0
  | .busPeek addr           => record addr 0x09 0 0 0
  | .romProbeRd image addr  => record addr 0x0A (lowByte image) (highByte image) 0
  | .romProbeWr image addr data => record addr 0x0B (lowByte image) (highByte image) data
  | .piaPeek sel            => record 0 0x0C (sel.setWidth 8) 0 0
  | .piaSetIn s v           => record 0 0x0D (sectionByte s) v 0
  | .piaSetC1 s sig         => record 0 0x0E (sectionByte s) (signalByte sig) 0
  | .piaSetC2 s sig         => record 0 0x0F (sectionByte s) (signalByte sig) 0
  | .termEnq v              => record 0 0x10 v 0 0
  | .termStep               => record 0 0x11 0 0 0
  | .termDrain              => record 0 0x12 0 0 0
  | .termClear              => record 0 0x13 0 0 0
  | .keyDown key shift      => record 0 0x14 (lowByte key) (highByte key) (boolByte shift)
  | .keyBatch events        => 0 :: 0 :: 0x15 :: encodeEvents events
  | .sysPowerOn             => record 0 0x16 0 0 0
  | .sysReset               => record 0 0x17 0 0 0

/-! ## The opcode table's numbering -/

/-- The first `n` bytes of a number, its least significant byte first. -/
def bytesOf : Nat → Nat → List Byte
  | 0, _ => []
  | n + 1, w => BitVec.ofNat 8 w :: bytesOf n (w / 256)

/-- An operation whose low `nbits` bits are those of `w`, in the opcode table's numbering, laid out as bytes: every bit
of the record above them is 0. Six bytes are the record of every operation whose upper bits are 0. -/
def tableWordBytes (nbits w : Nat) : List Byte := bytesOf (max 6 ((nbits + 7) / 8)) (w % 2 ^ nbits)

/-- The operation the decoder reads from a word of the opcode table. The table's match column holds an address only, so
the read and the write rows of one address have the same word: with zeros above it, it is the read (log 2). -/
def decodeTableWord (nbits w : Nat) : Option Instr :=
  match decode (tableWordBytes nbits w) with
  | .ok i _ => some i
  | .reject _ => none

end Sys2Proof
end

