-- ==== Sys2Proof/Machine/Memory.lean ====
section
/-! DEFINITION. RAM contents as plain data: a list of (address, byte) cells in one canonical form (10_state.md R30). -/

namespace Sys2Proof.Machine

/-- The contents of the 64K RAM: cells at strictly rising addresses, none holding what an unlisted address reads as. -/
abbrev Memory := List Host.Cell

/-- What an unlisted address reads as: the default of `RAM_INIT` (00_scope.md R5, D5; log 4). -/
def Memory.unlisted : Byte := 0x00

/-- The size of the address space (20_memory.md R50). -/
def Memory.size : Nat := 0x10000

/-- The byte at an address. -/
def Memory.read : Memory → Nat → Byte
  | [], _ => Memory.unlisted
  | (k, w) :: m, a => if k = a then w else Memory.read m a

/-- The contents after a byte is stored at an address, in canonical form again. -/
def Memory.write : Memory → Nat → Byte → Memory
  | [], a, v => if v = Memory.unlisted then [] else [(a, v)]
  | (k, w) :: m, a, v =>
    if a < k then (if v = Memory.unlisted then (k, w) :: m else (a, v) :: (k, w) :: m)
    else if a = k then (if v = Memory.unlisted then m else (a, v) :: m)
    else (k, w) :: Memory.write m a v

/-- The cells are in canonical form and none lies below `lo`. -/
def Memory.wfFrom : Nat → Memory → Bool
  | _, [] => true
  | lo, (k, w) :: m => decide (lo ≤ k) && decide (k < Memory.size) && (w != Memory.unlisted) && Memory.wfFrom (k + 1) m

/-- The canonical form: strictly rising addresses of the space, no cell equal to what an unlisted address reads as. -/
def Memory.wf (m : Memory) : Bool := Memory.wfFrom 0 m

end Sys2Proof.Machine
end

