-- ==== Sys2Proof/Machine/Parts.lean ====
section
/-! DEFINITION. The parts of the machine's state, each with its value after reset (10_state.md R21 to R41). -/

namespace Sys2Proof.Machine

/-- The registers and control lines of one PIA section (10_state.md R21 to R29). -/
structure PiaSection where
  /-- `OR`, the output register -/
  outReg : Byte
  /-- `IR`, the input register -/
  inReg  : Byte
  /-- `DDR`, the data-direction register -/
  ddr    : Byte
  /-- `CR`, the control register with its two flag bits -/
  cr     : Byte
  /-- control line 1 -/
  c1     : Signal
  /-- control line 2 -/
  c2     : Signal
  deriving DecidableEq, Repr

/-- A section after `PiaReset()` (70_reset_and_hazards.md R182; logs 5, 6). -/
def PiaSection.afterReset (line : Signal) : PiaSection :=
  { outReg := resetRegister, inReg := resetRegister, ddr := resetRegister, cr := resetRegister, c1 := line, c2 := line }

/-- The 24 by 40 cells of something, row by row. -/
abbrev CellArray (α : Type) := Vector (Vector α gridCols) gridRows

/-- The cursor: column and row (10_state.md R35; log 18). -/
structure Cursor where
  x : Fin gridCols
  y : Fin gridRows
  deriving DecidableEq, Repr

/-- The terminal (10_state.md R34 to R38). -/
structure Terminal where
  /-- `GRID`: the code stored in each cell -/
  grid  : CellArray Byte
  /-- `CUR` -/
  cur   : Cursor
  /-- `QUEUE`, oldest byte first -/
  queue : List Byte
  /-- `PIX`: the 8 by 8 block of pixels of each cell -/
  pix   : CellArray Glyph
  deriving DecidableEq, Repr

/-- The terminal after a reset: grid of spaces, surface clear, cursor at (0, 0), queue empty (10_state.md R41). -/
def Terminal.afterReset : Terminal :=
  { grid  := Vector.replicate gridRows (Vector.replicate gridCols spaceCode)
    cur   := { x := 0, y := 0 }
    queue := []
    pix   := Vector.replicate gridRows (Vector.replicate gridCols blankGlyph) }

/-- What the block sends to the outside (10_state.md R40). -/
inductive Event where
  /-- the section's output callback was invoked with a byte -/
  | out (sec : Section) (v : Byte)
  /-- the interrupt callback was invoked for the section -/
  | irq (sec : Section)
  /-- the PIA itself assigned a state to the section's control line 2 -/
  | lineOut (sec : Section) (sig : Signal)
  /-- the bus called the CPU operation of that name -/
  | cpuClock | cpuReset | cpuIrq | cpuNmi
  deriving DecidableEq, Repr

/-- What an operation gives back to its caller: the result column of 30_encoding.md R70 (log 3). -/
inductive Result where
  /-- the operation has no result -/
  | nothing
  /-- a byte: `BUS.RD`, `BUS.PEEK`, `PIA.PEEK` -/
  | byte (v : Byte)
  /-- an address or none: `BUS.ROMLOW`, `BUS.ROMHIGH` -/
  | addr (a : Option Nat)
  /-- a byte or "not mine": `ROM.PROBE_RD` -/
  | probe (v : Option Byte)
  /-- accepted or rejected: `ROM.PROBE_WR` -/
  | accepted (yes : Bool)
  deriving DecidableEq, Repr

end Sys2Proof.Machine
end

