-- ==== Sys2Proof/Machine/State.lean ====
section
/-! DEFINITION. The state of the block as plain data, holding all that 10_state.md R20 gives it, the parameters of
00_scope.md R5, and two fields of the model's own; why a step may stop; the machine after reset (10_state.md R41). -/

namespace Sys2Proof.Machine

/-- The state of the machine. -/
structure State where
  /-- PIA section A -/
  secA    : PiaSection
  /-- PIA section B -/
  secB    : PiaSection
  /-- `RAM` (10_state.md R30) -/
  ram     : Memory
  /-- the installed ROM images with their present bytes (10_state.md R31) -/
  rom     : List RomImage
  /-- `CYCLES` (10_state.md R32) -/
  cycles  : Nat
  /-- the terminal -/
  term    : Terminal
  /-- `TRACE`, oldest event first (10_state.md R40) -/
  trace   : List Event
  /-- the model's own: what the last operation gave back to its caller (log 3) -/
  result  : Result
  /-- the model's own: the records of the operations the agents issue next, oldest first (log 1) -/
  pending : List Byte
  /-- the parameters, fixed while the machine runs (log 11) -/
  cfg     : Config
  deriving DecidableEq, Repr

/-- Why the machine stops with a fault. Nobody raises one: no operation of the block faults (60_exceptions.md R160), so
the type has no constructor. -/
inductive Fault where
  deriving DecidableEq, Repr

/-- Why a step is refused. -/
inductive Refusal where
  /-- Raised by exec's arm of an instruction that has no meaning yet; none is left. Safe: the run stops. -/
  | notModelled (mnemonic : String)
  /-- Raised by SYS.POWERON when an installed image is ill-formed: such a configuration is not a machine and has no runs
  (60_exceptions.md R161, 41_bus.md R119, U4; log 14). Safe: the run stops where the spec has no run. -/
  | invalidConfiguration
  /-- Raised by step when the pending bytes are not the record of an operation, a form the spec does not have (log 20).
  Safe: the run stops. -/
  | notAnOperation (e : DecodeError)
  deriving DecidableEq, Repr

/-- The machine after power-on with the default parameters (10_state.md R41, 70_reset_and_hazards.md R180). -/
def State.reset : State :=
  { secA    := PiaSection.afterReset defaultConfig.resetLine
    secB    := PiaSection.afterReset defaultConfig.resetLine
    ram     := defaultConfig.ramInit
    rom     := defaultConfig.romImages
    cycles  := 0
    term    := Terminal.afterReset
    trace   := []
    result  := .nothing
    pending := []
    cfg     := defaultConfig }

end Sys2Proof.Machine
end

