-- ==== Sys2Proof/Machine/Ops.lean ====
section
/-! DEFINITION. The operations the meanings share: access to registers and memory, the output trace, the two callbacks
of the PIA (40_pia.md R102), the interrupt request, the resets, and the fetch of the next operation.

The block takes no exception and returns from none (60_exceptions.md R168, R169). The one thing of that kind it does is
to signal an interrupt request: `signalIrq` and `evalIrq`, shared by every operation that can raise one. -/

namespace Sys2Proof.Machine

/-! ## Access -/

/-- The registers of a section. -/
def State.sec (s : State) : Section → PiaSection
  | .a => s.secA
  | .b => s.secB

/-- The state with a section's registers replaced. -/
def State.setSec (s : State) (k : Section) (p : PiaSection) : State :=
  match k with
  | .a => { s with secA := p }
  | .b => { s with secB := p }

/-- The state with the terminal replaced. -/
def State.setTerm (s : State) (t : Terminal) : State := { s with term := t }

/-- The state with the RAM replaced. -/
def State.setRam (s : State) (m : Memory) : State := { s with ram := m }

/-- The state with the ROM images replaced. -/
def State.setRom (s : State) (roms : List RomImage) : State := { s with rom := roms }

/-- The state with the cycle counter replaced. -/
def State.setCycles (s : State) (n : Nat) : State := { s with cycles := n }

/-- The state with the pending bytes replaced. -/
def State.setPending (s : State) (bytes : List Byte) : State := { s with pending := bytes }

/-- `emit E`: the event is appended to the trace (00_scope.md R8). -/
def State.emit (s : State) (e : Event) : State := { s with trace := s.trace ++ [e] }

/-- `return v`: what the operation gives back to its caller (00_scope.md R8; log 3). -/
def State.give (s : State) (r : Result) : State := { s with result := r }

/-- `Cfg[s] = CFG_LAYOUT(CR[s][5:0])` (40_pia.md R90). -/
def State.cfgOf (s : State) (k : Section) : Cfg := decodeCfg s.cfg.cfgLayout (s.sec k).cr

/-- `Port(s)` (40_pia.md R90). -/
def State.port (s : State) (k : Section) : Byte := portOf (s.sec k).outReg (s.sec k).inReg (s.sec k).ddr

/-- `IrqLevel(s)` (40_pia.md R91). -/
def State.irqLevel (s : State) (k : Section) : Bool := irqLevelOf (s.cfgOf k) (s.sec k).cr

/-- `RAM[a]`. -/
def State.ramByte (s : State) (addr : Addr) : Byte := Memory.read s.ram addr.toNat

/-- `RAM[a] <- v`. -/
def State.storeRam (s : State) (addr : Addr) (v : Byte) : State := s.setRam (Memory.write s.ram addr.toNat v)

/-- Some installed image claims the address (41_bus.md R110). -/
def State.romClaims (s : State) (addr : Addr) : Bool := Machine.romClaims s.cfg.romVectorTruncate s.rom addr

/-- The store that answers an access now (30_encoding.md R71). -/
def State.resolve (s : State) (addr : Addr) : Target := Machine.resolve s.cfg.romVectorTruncate s.rom addr

/-! ## The PIA's outputs -/

/-- `SetC2Out`: the PIA itself drives control line 2 (40_pia.md R90). -/
def setC2Out (k : Section) (sig : Signal) (s : State) : State :=
  (s.setSec k { s.sec k with c2 := sig }).emit (.lineOut k sig)

/-- The route of a section's interrupt request (60_exceptions.md R166). -/
def routeOf (r : IrqRouting) : Section → IrqRoute
  | .a => r.a
  | .b => r.b

/-- A request is signalled: the `Irq` event, and right after it the CPU call its route names (60_exceptions.md R166). -/
def signalIrq (k : Section) (s : State) : State :=
  match routeOf s.cfg.irqRouting k with
  | .none => s.emit (.irq k)
  | .irq  => (s.emit (.irq k)).emit .cpuIrq
  | .nmi  => (s.emit (.irq k)).emit .cpuNmi

/-- `EvalIrq(s)` (40_pia.md R91). -/
def evalIrq (k : Section) (s : State) : State := if s.irqLevel k then signalIrq k s else s

/-- `TERM.ENQ`: the byte is appended at the back (42_terminal.md R130). A queue that a platform bounded and that is full
is then as the platform makes it, within the bound (D9; log 12). -/
def Terminal.enqueue (cap : Option Nat) (v : Byte) (t : Terminal) : Terminal :=
  match cap with
  | none => { t with queue := t.queue ++ [v] }
  | some n =>
    if t.queue.length < n then { t with queue := t.queue ++ [v] }
    else { t with queue := (Config.queueOverflow t.queue v).take n }

/-- `TERM.ENQ` on the machine. -/
def enqueue (v : Byte) (s : State) : State := s.setTerm (s.term.enqueue s.cfg.queueCap v)

/-- `emit Out(s, v)` with its consumer: the terminal takes the bytes of port B in the same step, port A has none
(40_pia.md R102, D23). -/
def outCallback (k : Section) (v : Byte) (s : State) : State :=
  match k with
  | .a => s.emit (.out .a v)
  | .b => enqueue v (s.emit (.out .b v))

/-! ## Resets -/

/-- `PiaReset()`: no callback and no event (70_reset_and_hazards.md R182). -/
def piaReset (s : State) : State :=
  (s.setSec .a (PiaSection.afterReset s.cfg.resetLine)).setSec .b (PiaSection.afterReset s.cfg.resetLine)

/-- The configuration is valid: every image is well-formed (41_bus.md R119, 60_exceptions.md R161). -/
def configValid (cfg : Config) : Bool := cfg.romImages.all imageValid

/-! ## Fetch -/

/-- What the agents do next. -/
inductive Fetched where
  /-- no operation is pending -/
  | idle
  /-- an operation, and the pending bytes after its record -/
  | op (i : Instr) (rest : List Byte)
  /-- the pending bytes are not the record of an operation -/
  | bad (e : DecodeError)
  deriving DecidableEq, Repr

/-- The next pending operation (log 1). -/
def fetch (s : State) : Fetched :=
  match s.pending with
  | [] => .idle
  | b :: bs =>
    match decode (b :: bs) with
    | .ok i rest => .op i rest
    | .reject e => .bad e

end Sys2Proof.Machine
end

