-- ==== Sys2Proof/Machine/Pia.lean ====
section
/-! DEFINITION. The Peripheral Interface Adapter (40_pia.md). Every operation is total (R103). -/

namespace Sys2Proof.Machine

/-! ## Bus side -/

/-- `PIA.RD` of a data port: both flags of the section are cleared, the port value is returned, whatever the port mode
(R92). -/
def piaReadData (k : Section) (s : State) : State :=
  let s := s.setSec k { s.sec k with cr := clearFlags (s.sec k).cr }
  s.give (.byte (s.port k))

/-- `PIA.RD` of a control register: verbatim, nothing changes (R93). -/
def piaReadControl (k : Section) (s : State) : State := s.give (.byte (s.sec k).cr)

/-- `PIA.RD sel` (R92, R93). -/
def piaRead (sel : BitVec 2) (s : State) : State :=
  if isData sel then piaReadData (sectionOf sel) s else piaReadControl (sectionOf sel) s

/-- `HandshakeOnWrite()`: the automatic movement of CB2 (R96, D16). -/
def handshakeOnWrite (s : State) : State :=
  match (s.cfgOf .b).c2Mode with
  | .handshake => setC2Out .b .fall s
  | .pulse     => setC2Out .b .rise (setC2Out .b .fall s)
  | .manual _  => s
  | .input _ _ => s

/-- `PIA.WR` of a data register in write-port mode (R94); only section B moves its line 2 (R104, D17). -/
def piaWriteOut (k : Section) (data : Byte) (s : State) : State :=
  let s := s.setSec k { s.sec k with outReg := data }
  let s := outCallback k (s.port k) s
  match k with
  | .a => s
  | .b => handshakeOnWrite s

/-- `PIA.WR` of a data register while write-port mode is clear (R95). -/
def piaWriteDdr (k : Section) (data : Byte) (s : State) : State := s.setSec k { s.sec k with ddr := data }

/-- `PIA.WR` of a control register: store, decode, drive line 2 in manual mode, evaluate (R97, R105, R167). -/
def piaWriteControl (k : Section) (data : Byte) (s : State) : State :=
  let s := s.setSec k { s.sec k with cr := writeConfig (s.sec k).cr data }
  let s :=
    match (s.cfgOf k).c2Mode with
    | .manual level => setC2Out k level s
    | .handshake    => s
    | .pulse        => s
    | .input _ _    => s
  evalIrq k s

/-- `PIA.WR sel, data` (R94 to R97); the port mode chooses between the output and the direction register
(30_encoding.md R74). -/
def piaWrite (sel : BitVec 2) (data : Byte) (s : State) : State :=
  if isData sel then
    if (s.cfgOf (sectionOf sel)).portMode then piaWriteOut (sectionOf sel) data s
    else piaWriteDdr (sectionOf sel) data s
  else piaWriteControl (sectionOf sel) data s

/-- `PIA.PEEK sel`: the value a read would return (R101). -/
def piaPeek (sel : BitVec 2) (s : State) : Byte :=
  if isData sel then s.port (sectionOf sel) else (s.sec (sectionOf sel)).cr

/-! ## Port side -/

/-- `PIA.SETIN` (R98). -/
def setIn (k : Section) (v : Byte) (s : State) : State := s.setSec k { s.sec k with inReg := v }

/-- An active transition of control line 1: flag 1, evaluation, and in handshake mode line 2 raised, in this order
(R99, D28). -/
def activeC1 (k : Section) (s : State) : State :=
  let s := s.setSec k { s.sec k with cr := setFlag1 (s.sec k).cr }
  let s := evalIrq k s
  match (s.cfgOf k).c2Mode with
  | .handshake => setC2Out k .rise s
  | .pulse     => s
  | .manual _  => s
  | .input _ _ => s

/-- `PIA.SETC1` (R99). -/
def setC1 (k : Section) (sig : Signal) (s : State) : State :=
  let t := s.setSec k { s.sec k with c1 := sig }
  if sig ≠ (s.sec k).c1 ∧ sig = (s.cfgOf k).c1Edge then activeC1 k t else t

/-- An active transition of control line 2: flag 2, evaluation (R100). -/
def activeC2 (k : Section) (s : State) : State :=
  evalIrq k (s.setSec k { s.sec k with cr := setFlag2 (s.sec k).cr })

/-- `PIA.SETC2`: the state is always updated; only an input line has an active edge (R100, D19). -/
def setC2 (k : Section) (sig : Signal) (s : State) : State :=
  let t := s.setSec k { s.sec k with c2 := sig }
  match (s.cfgOf k).c2Mode with
  | .input edge _ => if sig ≠ (s.sec k).c2 ∧ sig = edge then activeC2 k t else t
  | .manual _     => t
  | .handshake    => t
  | .pulse        => t

/-! ## Meanings -/

/-- `PIA.PEEK sel` (R101). -/
def execPiaPeek (sel : BitVec 2) (s : State) : Host.Outcome State Fault Refusal := .next (s.give (.byte (piaPeek sel s)))

/-- `PIA.SETIN s, v` (R98). -/
def execPiaSetIn (k : Section) (v : Byte) (s : State) : Host.Outcome State Fault Refusal :=
  .next ((setIn k v s).give .nothing)

/-- `PIA.SETC1 s, sig` (R99). -/
def execPiaSetC1 (k : Section) (sig : Signal) (s : State) : Host.Outcome State Fault Refusal :=
  .next ((setC1 k sig s).give .nothing)

/-- `PIA.SETC2 s, sig` (R100). -/
def execPiaSetC2 (k : Section) (sig : Signal) (s : State) : Host.Outcome State Fault Refusal :=
  .next ((setC2 k sig s).give .nothing)

end Sys2Proof.Machine
end

