-- ==== Sys2Proof/Machine/Keyboard.lean ====
section
/-! DEFINITION. The Keyboard Input Pipeline (43_keyboard.md). It has no state of its own; it acts on section A's input
register and control line 1 only (R154). -/

namespace Sys2Proof.Machine

/-- `Strobe(c)`: Fall, set the input register, Rise, Fall (R152). -/
def strobe (c : Byte) (s : State) : State :=
  setC1 .a .fall (setC1 .a .rise (setIn .a (latchedCode c) (setC1 .a .fall s)))

/-- The strobe of a code, or nothing at all where no code was accepted (R151). -/
def strobeIf (code : Option Byte) (s : State) : State :=
  match code with
  | some c => strobe c s
  | none => s

/-- `KEY.DOWN key, shift` (R151). -/
def execKeyDown (key : Nat) (shift : Bool) (s : State) : Host.Outcome State Fault Refusal :=
  .next ((strobeIf (acceptedCode s.cfg key shift) s).give .nothing)

/-- `KEY.BATCH`: the first event that matches, nothing for the others (R153). -/
def execKeyBatch (events : List KeyEvent) (s : State) : Host.Outcome State Fault Refusal :=
  .next ((strobeIf (firstMatch s.cfg events) s).give .nothing)

end Sys2Proof.Machine
end

