-- ==== Sys2Proof/Machine/Bus.lean ====
section
/-! DEFINITION. The ROM images and the System Bus (41_bus.md). A bus access resolves its address when it runs: the images
in insertion order, then the PIA window, then RAM (30_encoding.md R71), so the meaning of every row of the table that is
a bus read is the whole BUS.RD, and of every row that is a bus write the whole BUS.WR (log 2). -/

namespace Sys2Proof.Machine

/-- `BUS.RD addr` (R113); `read_only` is inert (R120). -/
def busRead (addr : Addr) (s : State) : State :=
  match romRead s.cfg.romVectorTruncate s.rom addr with
  | some v => s.give (.byte v)
  | none => if inWindow addr then piaRead (selector addr) s else s.give (.byte (s.ramByte addr))

/-- `BUS.WR addr, data` (R114). -/
def busWrite (addr : Addr) (data : Byte) (s : State) : State :=
  match romWrite s.cfg.romVectorTruncate s.cfg.romWritable s.rom addr data with
  | some roms => (s.setRom roms).give .nothing
  | none =>
    if inWindow addr then (piaWrite (selector addr) data s).give .nothing else (s.storeRam addr data).give .nothing

/-- `BUS.PEEK addr`: the value `BUS.RD` would return (R118). -/
def busPeek (addr : Addr) (s : State) : Byte :=
  match s.resolve addr with
  | .rom k off => ((s.rom[k]?.bind fun img => img.bytes[off]?).getD 0)
  | .pia sel   => piaPeek sel s
  | .ram a     => s.ramByte a

/-- `BUS.RST` without its result: the CPU engine resets, the counter is zeroed (R116). -/
def busReset (s : State) : State := (s.emit .cpuReset).setCycles 0

/-! ## Meanings: the rows of bus reads -/

/-- `BUS.RD (ROM image)` (R111, R113). -/
def execBusRdRom (addr : Addr) (_readOnly : Bool) (s : State) : Host.Outcome State Fault Refusal := .next (busRead addr s)
/-- `BUS.RD -> PIA.RD 0 (data port A)` (40_pia.md R92, R113). -/
def execBusRdPortA (addr : Addr) (_readOnly : Bool) (s : State) : Host.Outcome State Fault Refusal := .next (busRead addr s)
/-- `BUS.RD -> PIA.RD 1 (control register A)` (40_pia.md R93, R113). -/
def execBusRdCtrlA (addr : Addr) (_readOnly : Bool) (s : State) : Host.Outcome State Fault Refusal := .next (busRead addr s)
/-- `BUS.RD -> PIA.RD 2 (data port B)` (40_pia.md R92, R113). -/
def execBusRdPortB (addr : Addr) (_readOnly : Bool) (s : State) : Host.Outcome State Fault Refusal := .next (busRead addr s)
/-- `BUS.RD -> PIA.RD 3 (control register B)` (40_pia.md R93, R113). -/
def execBusRdCtrlB (addr : Addr) (_readOnly : Bool) (s : State) : Host.Outcome State Fault Refusal := .next (busRead addr s)
/-- `BUS.RD (RAM)` (R113). -/
def execBusRdRam (addr : Addr) (_readOnly : Bool) (s : State) : Host.Outcome State Fault Refusal := .next (busRead addr s)

/-! ## Meanings: the rows of bus writes -/

/-- `BUS.WR (ROM image)` (R112, R114). -/
def execBusWrRom (addr : Addr) (data : Byte) (s : State) : Host.Outcome State Fault Refusal := .next (busWrite addr data s)
/-- `BUS.WR -> PIA.WR 0 (output register A)` (40_pia.md R94, R114). -/
def execBusWrOutA (addr : Addr) (data : Byte) (s : State) : Host.Outcome State Fault Refusal := .next (busWrite addr data s)
/-- `BUS.WR -> PIA.WR 0 (direction register A)` (40_pia.md R95, R114). -/
def execBusWrDdrA (addr : Addr) (data : Byte) (s : State) : Host.Outcome State Fault Refusal := .next (busWrite addr data s)
/-- `BUS.WR -> PIA.WR 1 (control register A)` (40_pia.md R97, R114). -/
def execBusWrCtrlA (addr : Addr) (data : Byte) (s : State) : Host.Outcome State Fault Refusal := .next (busWrite addr data s)
/-- `BUS.WR -> PIA.WR 2 (output register B)` (40_pia.md R94, R96, R114). -/
def execBusWrOutB (addr : Addr) (data : Byte) (s : State) : Host.Outcome State Fault Refusal := .next (busWrite addr data s)
/-- `BUS.WR -> PIA.WR 2 (direction register B)` (40_pia.md R95, R114). -/
def execBusWrDdrB (addr : Addr) (data : Byte) (s : State) : Host.Outcome State Fault Refusal := .next (busWrite addr data s)
/-- `BUS.WR -> PIA.WR 3 (control register B)` (40_pia.md R97, R114). -/
def execBusWrCtrlB (addr : Addr) (data : Byte) (s : State) : Host.Outcome State Fault Refusal := .next (busWrite addr data s)
/-- `BUS.WR (RAM)` (R114). -/
def execBusWrRam (addr : Addr) (data : Byte) (s : State) : Host.Outcome State Fault Refusal := .next (busWrite addr data s)

/-! ## Meanings: clock, reset, queries, inspection -/

/-- `BUS.CLK` (R115). -/
def execBusClk (s : State) : Host.Outcome State Fault Refusal :=
  .next (((s.emit .cpuClock).setCycles (s.cycles + 1)).give .nothing)

/-- `BUS.RST`: nothing but the CPU and the counter (R116). -/
def execBusRst (s : State) : Host.Outcome State Fault Refusal := .next ((busReset s).give .nothing)

/-- `BUS.ROMLOW` (R117). -/
def execBusRomLow (s : State) : Host.Outcome State Fault Refusal :=
  .next (s.give (.addr (romLow s.cfg.romVectorTruncate s.rom)))

/-- `BUS.ROMHIGH` (R117). -/
def execBusRomHigh (s : State) : Host.Outcome State Fault Refusal :=
  .next (s.give (.addr (romHigh s.cfg.romVectorTruncate s.rom)))

/-- `BUS.PEEK addr` (R118). -/
def execBusPeek (addr : Addr) (s : State) : Host.Outcome State Fault Refusal := .next (s.give (.byte (busPeek addr s)))

/-! ## Meanings: ROM probes -/

/-- `ROM.PROBE_RD img, addr` (R111); a number that names no installed image is nobody's address (log 15). -/
def execRomProbeRd (image : Nat) (addr : Addr) (s : State) : Host.Outcome State Fault Refusal :=
  .next (s.give (.probe (s.rom[image]?.bind fun img => probeRead s.cfg.romVectorTruncate img addr)))

/-- `ROM.PROBE_WR img, addr, data` (R112); a number that names no installed image rejects (log 15). -/
def execRomProbeWr (image : Nat) (addr : Addr) (data : Byte) (s : State) : Host.Outcome State Fault Refusal :=
  match s.rom[image]?.bind fun img => probeWrite s.cfg.romVectorTruncate s.cfg.romWritable img addr data with
  | some img' => .next ((s.setRom (s.rom.set image img')).give (.accepted true))
  | none => .next (s.give (.accepted false))

end Sys2Proof.Machine
end

