-- ==== Sys2Proof/Machine/Terminal.lean ====
section
/-! DEFINITION. The Terminal Output Pipeline (42_terminal.md). Its operations are functions of the terminal alone: no
terminal operation can touch the PIA or the bus (R143). -/

namespace Sys2Proof.Machine

/-! ## Cells -/

/-- The cell at row `y`, column `x`. -/
def cellAt {α : Type} (g : CellArray α) (y : Fin gridRows) (x : Fin gridCols) : α := g[y][x]

/-- The array with the cell at row `y`, column `x` replaced. -/
def putCell {α : Type} (g : CellArray α) (y : Fin gridRows) (x : Fin gridCols) (v : α) : CellArray α :=
  g.set y (g[y].set x v)

/-- Every row moved up by one, the last row filled with a value; the old row 0 is lost (R137). -/
def scrollUp {α : Type} (g : CellArray α) (blank : α) : CellArray α :=
  Vector.ofFn fun r => if h : r.val + 1 < gridRows then g[r.val + 1] else Vector.replicate gridCols blank

/-! ## Rendering -/

/-- `RenderNormal(y, x)` at a cell (R131). -/
def Terminal.renderNormal (table : GlyphTable) (c : Cursor) (t : Terminal) : Terminal :=
  { t with pix := putCell t.pix c.y c.x (glyphOf table (cellAt t.grid c.y c.x)) }

/-- `RenderInv(y, x)` at a cell (R131). -/
def Terminal.renderInv (table : GlyphTable) (c : Cursor) (t : Terminal) : Terminal :=
  { t with pix := putCell t.pix c.y c.x (invertGlyph (glyphOf table (cellAt t.grid c.y c.x))) }

/-! ## The per-byte state machine -/

/-- The terminal inside `TERM.STEP`, with the momentary cursor: `x` may be 40 and `y` 24 (10_state.md R35). -/
structure Placed where
  term : Terminal
  x    : Nat
  y    : Nat
  deriving DecidableEq, Repr

/-- Step 3, `Place(b, x, y)` of a folded byte at the cursor (R135). -/
def Terminal.place (table : GlyphTable) (b : Byte) (t : Terminal) : Placed :=
  match byteClass b with
  | .cr      => { term := t, x := 0, y := t.cur.y.val + 1 }
  | .print   =>
    { term := ({ t with grid := putCell t.grid t.cur.y t.cur.x b }).renderNormal table t.cur
      x := t.cur.x.val + 1, y := t.cur.y.val }
  | .ignored => { term := t, x := t.cur.x.val, y := t.cur.y.val }

/-- Step 4, column wrap (R136). -/
def wrapColumn (p : Placed) : Placed := if p.x = gridCols then { p with x := 0, y := p.y + 1 } else p

/-- `Scroll()` (R137). -/
def Terminal.scroll (t : Terminal) : Terminal :=
  { t with grid := scrollUp t.grid spaceCode, pix := scrollUp t.pix blankGlyph }

/-- Step 5, row overflow (R137). -/
def overflowRow (p : Placed) : Placed :=
  if p.y = gridRows then { p with term := p.term.scroll, y := gridRows - 1 } else p

/-- `CUR <- (x, y)`; after steps 4 and 5 both are in range, so no remainder is ever taken (R132; log 18). -/
def settleCursor (p : Placed) : Terminal :=
  { p.term with cur := { x := Fin.ofNat gridCols p.x, y := Fin.ofNat gridRows p.y } }

/-- What `TERM.STEP` does with the byte it took: the six steps in order (R132 to R138). -/
def Terminal.process (table : GlyphTable) (b : Byte) (t : Terminal) : Terminal :=
  let b := foldByte b
  let t := t.renderNormal table t.cur
  let t := settleCursor (overflowRow (wrapColumn (t.place table b)))
  t.renderInv table t.cur

/-- `TERM.STEP`: one queued byte; nothing at all on an empty queue (R132, R139). -/
def Terminal.step (table : GlyphTable) (t : Terminal) : Terminal :=
  match t.queue with
  | [] => t
  | b :: rest => ({ t with queue := rest }).process table b

/-- `TERM.STEP` a number of times. -/
def Terminal.steps (table : GlyphTable) : Nat → Terminal → Terminal
  | 0, t => t
  | n + 1, t => Terminal.steps table n (t.step table)

/-- `TERM.DRAIN`: `TERM.STEP` while the queue is not empty; each step takes exactly one byte (R139). -/
def Terminal.drain (table : GlyphTable) (t : Terminal) : Terminal := Terminal.steps table t.queue.length t

/-- `TERM.CLEAR`: grid of spaces, surface clear, cursor at (0, 0); the queue is not touched (R140). -/
def Terminal.clear (t : Terminal) : Terminal :=
  { t with
    grid := Vector.replicate gridRows (Vector.replicate gridCols spaceCode)
    pix  := Vector.replicate gridRows (Vector.replicate gridCols blankGlyph)
    cur  := { x := 0, y := 0 } }

/-- `TermReset()`: `TERM.CLEAR`, then the queue emptied (70_reset_and_hazards.md R180). -/
def Terminal.reset (t : Terminal) : Terminal := { t.clear with queue := [] }

/-- Surface pixel at row `8*y + r`, column `8*x + k` (10_state.md R38, R142). -/
def State.surfacePixel (s : State) (y : Fin gridRows) (x : Fin gridCols) (r : Fin glyphRows) (k : Fin 8) : Bool :=
  glyphPixel (cellAt s.term.pix y x) r k

/-! ## Meanings -/

/-- `TERM.ENQ v` (R130). -/
def execTermEnq (v : Byte) (s : State) : Host.Outcome State Fault Refusal := .next ((enqueue v s).give .nothing)

/-- `TERM.STEP` (R132). -/
def execTermStep (s : State) : Host.Outcome State Fault Refusal :=
  .next ((s.setTerm (s.term.step s.cfg.glyph)).give .nothing)

/-- `TERM.DRAIN` (R139). -/
def execTermDrain (s : State) : Host.Outcome State Fault Refusal :=
  .next ((s.setTerm (s.term.drain s.cfg.glyph)).give .nothing)

/-- `TERM.CLEAR` (R140). -/
def execTermClear (s : State) : Host.Outcome State Fault Refusal := .next ((s.setTerm s.term.clear).give .nothing)

end Sys2Proof.Machine
end

