-- ==== Sys2Proof/Machine/System.lean ====
section
/-! DEFINITION. Power-on and system reset (70_reset_and_hazards.md R180, R181). -/

namespace Sys2Proof.Machine

/-- The machine after `SYS.POWERON`: RAM as `RAM_INIT` gives it, the images as installed, the trace empty, the PIA, the
counter and the terminal reset; the CPU is not told (R180; logs 4, 14). -/
def powerOn (s : State) : State :=
  let s := { s.setRam s.cfg.ramInit with trace := [] }
  let s := piaReset (s.setRom s.cfg.romImages)
  (s.setCycles 0).setTerm s.term.reset

/-- The machine after `SYS.RESET`: RAM, the images and the trace's history are kept (R181). -/
def systemReset (s : State) : State :=
  let s := busReset (piaReset s)
  s.setTerm s.term.reset

/-! ## Meanings -/

/-- `SYS.POWERON`; its precondition is a valid configuration, and an owner with an invalid one declines to start
(R180, 60_exceptions.md R161; log 14). -/
def execSysPowerOn (s : State) : Host.Outcome State Fault Refusal :=
  if configValid s.cfg then .next ((powerOn s).give .nothing) else .refused .invalidConfiguration

/-- `SYS.RESET` (R181). -/
def execSysReset (s : State) : Host.Outcome State Fault Refusal := .next ((systemReset s).give .nothing)

end Sys2Proof.Machine
end

