-- ==== Sys2Proof/Machine/Dispatch.lean ====
section
/-! DEFINITION. What each operation does: one arm a constructor. -/

namespace Sys2Proof.Machine

def exec (i : Instr) (s : State) : Host.Outcome State Fault Refusal :=
  match i with
  | .busRdRom addr readOnly => Sys2Proof.Machine.execBusRdRom addr readOnly s
  | .busWrRom addr data => Sys2Proof.Machine.execBusWrRom addr data s
  | .busRdPortA addr readOnly => Sys2Proof.Machine.execBusRdPortA addr readOnly s
  | .busRdCtrlA addr readOnly => Sys2Proof.Machine.execBusRdCtrlA addr readOnly s
  | .busRdPortB addr readOnly => Sys2Proof.Machine.execBusRdPortB addr readOnly s
  | .busRdCtrlB addr readOnly => Sys2Proof.Machine.execBusRdCtrlB addr readOnly s
  | .busWrOutA addr data => Sys2Proof.Machine.execBusWrOutA addr data s
  | .busWrDdrA addr data => Sys2Proof.Machine.execBusWrDdrA addr data s
  | .busWrCtrlA addr data => Sys2Proof.Machine.execBusWrCtrlA addr data s
  | .busWrOutB addr data => Sys2Proof.Machine.execBusWrOutB addr data s
  | .busWrDdrB addr data => Sys2Proof.Machine.execBusWrDdrB addr data s
  | .busWrCtrlB addr data => Sys2Proof.Machine.execBusWrCtrlB addr data s
  | .busRdRam addr readOnly => Sys2Proof.Machine.execBusRdRam addr readOnly s
  | .busWrRam addr data => Sys2Proof.Machine.execBusWrRam addr data s
  | .busClk => Sys2Proof.Machine.execBusClk s
  | .busRst => Sys2Proof.Machine.execBusRst s
  | .busRomLow => Sys2Proof.Machine.execBusRomLow s
  | .busRomHigh => Sys2Proof.Machine.execBusRomHigh s
  | .busPeek addr => Sys2Proof.Machine.execBusPeek addr s
  | .romProbeRd image addr => Sys2Proof.Machine.execRomProbeRd image addr s
  | .romProbeWr image addr data => Sys2Proof.Machine.execRomProbeWr image addr data s
  | .piaPeek sel => Sys2Proof.Machine.execPiaPeek sel s
  | .piaSetIn k v => Sys2Proof.Machine.execPiaSetIn k v s
  | .piaSetC1 k sig => Sys2Proof.Machine.execPiaSetC1 k sig s
  | .piaSetC2 k sig => Sys2Proof.Machine.execPiaSetC2 k sig s
  | .termEnq v => Sys2Proof.Machine.execTermEnq v s
  | .termStep => Sys2Proof.Machine.execTermStep s
  | .termDrain => Sys2Proof.Machine.execTermDrain s
  | .termClear => Sys2Proof.Machine.execTermClear s
  | .keyDown key shift => Sys2Proof.Machine.execKeyDown key shift s
  | .keyBatch events => Sys2Proof.Machine.execKeyBatch events s
  | .sysPowerOn => Sys2Proof.Machine.execSysPowerOn s
  | .sysReset => Sys2Proof.Machine.execSysReset s

end Sys2Proof.Machine
end

