-- ==== Sys2Proof/Machine/Step.lean ====
section
/-! DEFINITION. One step: the next operation the agents issue (00_scope.md R9). -/

namespace Sys2Proof.Machine

/-- One step: the pending operation at the head is taken and run; with none pending nothing happens. The block has no
halt (00_scope.md R13). DESIGN CHOICE (log 27): an operation of kind int runs too, though no agent may issue it. -/
def step (s : State) : Host.Outcome State Fault Refusal :=
  match fetch s with
  | .idle => .next s
  | .op i rest => exec i (s.setPending rest)
  | .bad e => .refused (.notAnOperation e)

/-- The state in which the next operation issued is the one of an opcode-table word: its record is all that is pending
(log 1). -/
def State.withFetchWord (s : State) (nbits w : Nat) : State := s.setPending (tableWordBytes nbits w)

end Sys2Proof.Machine
end

