-- ==== Sys2Proof/Machine/Agents.lean ====
section
/-! DEFINITION. The agents outside the block and what each may issue (00_scope.md R10, R13; the kind column of
30_encoding.md R70). The meanings and step do not rest on it: they run every operation of R70 (log 27). A claim about
what the agents can bring about names it as a premise, as R13 asks. -/

namespace Sys2Proof.Machine

/-- The agents that issue operations (00_scope.md R10). -/
inductive Agent where
  /-- the external CPU engine, or a debugger -/
  | busMaster
  /-- the assembly that owns the bus and the CPU -/
  | systemDriver
  /-- what is wired to the PIA's port side; the in-scope system has none but the keyboard, whose moves are inside its
  key events (R13, D31) -/
  | portSide
  | keySource
  | renderLoop
  deriving DecidableEq, Repr

/-- The agent that may issue an operation; `none` for the operations of kind `int`, which only another operation of the
block issues, so that no agent has them as a move (00_scope.md R10, R13, 30_encoding.md R70). -/
def issuerOf : Instr → Option Agent
  | .busRdRom _ _ | .busWrRom _ _ | .busRdRam _ _ | .busWrRam _ _ => some .busMaster
  | .busRdPortA _ _ | .busRdCtrlA _ _ | .busRdPortB _ _ | .busRdCtrlB _ _ => some .busMaster
  | .busWrOutA _ _ | .busWrDdrA _ _ | .busWrCtrlA _ _ => some .busMaster
  | .busWrOutB _ _ | .busWrDdrB _ _ | .busWrCtrlB _ _ => some .busMaster
  | .busClk | .busRst | .busRomLow | .busRomHigh | .busPeek _ => some .systemDriver
  | .romProbeRd _ _ | .romProbeWr _ _ _ => none
  | .piaPeek _ => none
  | .piaSetIn _ _ | .piaSetC1 _ _ | .piaSetC2 _ _ => some .portSide
  | .termEnq _ => none
  | .termStep | .termDrain | .termClear => some .renderLoop
  | .keyDown _ _ | .keyBatch _ => some .keySource
  | .sysPowerOn | .sysReset => some .systemDriver

end Sys2Proof.Machine
end

