-- ==== Sys2Proof/Safety.lean ====
section
/-! DEFINITION. The words claims use: the invariant of the machine, the rows of a bus access, which RAM bytes are
shadowed, and the events of a request. -/

namespace Sys2Proof.Machine

/-- Every grid cell holds a printable code (10_state.md R34, 42_terminal.md R143). -/
def Terminal.gridPrintable (t : Terminal) : Prop :=
  ∀ (y : Fin gridRows) (x : Fin gridCols), printable (cellAt t.grid y x) = true

/-- The queue is within its capacity, where it has one (00_scope.md R5). -/
def Terminal.queueWithin (cap : Option Nat) (t : Terminal) : Prop := ∀ n, cap = some n → t.queue.length ≤ n

/-- The bases and lengths of the images: what no bus write changes (10_state.md R31). -/
def romShape (roms : List RomImage) : List (Addr × Nat) := roms.map fun img => (img.base, img.bytes.length)

/-- What holds of every state a run reaches. -/
structure State.Inv (s : State) : Prop where
  /-- the RAM is in canonical form -/
  ramWf       : Memory.wf s.ram = true
  /-- so are the contents it has at power-on -/
  ramInitWf   : Memory.wf s.cfg.ramInit = true
  /-- every image is well-formed (41_bus.md R119) -/
  configOk    : configValid s.cfg = true
  /-- no image changed its base or its length (10_state.md R31) -/
  romKept     : romShape s.rom = romShape s.cfg.romImages
  /-- unless ROM is writable, no image changed at all (10_state.md R31) -/
  romReadOnly : s.cfg.romWritable = false → s.rom = s.cfg.romImages
  /-- the grid holds printable codes only (42_terminal.md R143) -/
  gridOk      : s.term.gridPrintable
  /-- the queue is within its capacity -/
  queueOk     : s.term.queueWithin s.cfg.queueCap

/-- The rows a BUS.RD of an address can be listed under: all are the same bus read (30_encoding.md R71; log 2). -/
def busReadRows (addr : Addr) (readOnly : Bool) : List Instr :=
  [.busRdRom addr readOnly, .busRdPortA addr readOnly, .busRdCtrlA addr readOnly, .busRdPortB addr readOnly,
   .busRdCtrlB addr readOnly, .busRdRam addr readOnly]

/-- The rows a BUS.WR of an address can be listed under: all are the same bus write (30_encoding.md R71; log 2). -/
def busWriteRows (addr : Addr) (data : Byte) : List Instr :=
  [.busWrRom addr data, .busWrOutA addr data, .busWrDdrA addr data, .busWrCtrlA addr data, .busWrOutB addr data,
   .busWrDdrB addr data, .busWrCtrlB addr data, .busWrRam addr data]

/-- The selector of a section's data register (30_encoding.md R73). -/
def dataSel : Section → BitVec 2
  | .a => 0
  | .b => 2

/-- The selector of a section's control register (30_encoding.md R73). -/
def controlSel : Section → BitVec 2
  | .a => 1
  | .b => 3

/-- An access of this address reaches the PIA register with this selector: no image claims the address, and it is in the
window with that selector (30_encoding.md R71). -/
def State.reachesPia (s : State) (addr : Addr) (sel : BitVec 2) : Prop :=
  s.romClaims addr = false ∧ windowRow addr sel = true

/-- An access of this address reaches RAM (20_memory.md R57). -/
def State.reachesRam (s : State) (addr : Addr) : Prop := s.romClaims addr = false ∧ inWindow addr = false

/-- The events of one signalled request of a section (60_exceptions.md R166). -/
def requestEvents (r : IrqRouting) (k : Section) : List Event :=
  match routeOf r k with
  | .none => [.irq k]
  | .irq  => [.irq k, .cpuIrq]
  | .nmi  => [.irq k, .cpuNmi]

/-- The events of one evaluation of a section's interrupt condition (40_pia.md R91). -/
def evalEvents (s : State) (k : Section) : List Event := if s.irqLevel k then requestEvents s.cfg.irqRouting k else []

/-- The queue takes a byte without reaching a platform's bound; true of every queue while `QUEUE_CAP` is unbounded. -/
def State.queueHasRoom (s : State) : Prop := ∀ n, s.cfg.queueCap = some n → s.term.queue.length < n

/-- Everything pending is a well-formed operation that some agent may issue: the premise of a claim about what the
agents can bring about (00_scope.md R13; log 27). -/
def State.issuedByAgents (s : State) : Prop :=
  ∃ ops : List Instr, s.pending = ops.flatMap encode ∧ ∀ i ∈ ops, i.wellFormed = true ∧ (issuerOf i).isSome = true

/-- The bytes of the `Out(B, v)` events, which the terminal takes (40_pia.md R102). -/
def portBBytes (events : List Event) : List Byte :=
  events.filterMap fun e =>
    match e with
    | .out .b v => some v
    | _ => none

/-- The operations of the terminal's own: they can touch nothing else (42_terminal.md R143). -/
def isTerminalOp : Instr → Bool
  | .termEnq _ => true
  | .termStep  => true
  | .termDrain => true
  | .termClear => true
  | _ => false

/-- The operations that reset the terminal, beside `TERM.CLEAR`. -/
def isSystemReset : Instr → Bool
  | .sysPowerOn => true
  | .sysReset   => true
  | _ => false

/-- The states agree on everything but RAM bytes that no bus access reaches (20_memory.md R57). -/
def AgreeOffShadow (s t : State) : Prop :=
  t = { s with ram := t.ram } ∧ ∀ addr, s.reachesRam addr → t.ramByte addr = s.ramByte addr

end Sys2Proof.Machine
end

