-- ==== Sys2Proof/Certificates/Slice0/Obligations.lean ====
section
/-! DEFINITION. The statements for the provers. A statement about a bus access is about every row the access can be
listed under (`busReadRows`, `busWriteRows`): they are one operation (30_encoding.md R71; log 2). A statement that gives
the next state whole, as an update of the state before, says that everything else is unchanged: every register, flag,
line, byte of RAM, ROM image, the trace, the terminal, the pending operations and the parameters. -/

open Sys2Proof Sys2Proof.Machine

/-! ## Encoding -/

/-- Decoding an encoded well-formed operation gives it back, with the bytes after its record. The records are the model's
choice (log 1); their address bytes are the opcode table's (30_encoding.md section 6). -/
def Obligations.DecodeOfEncodeIsTheOperation : Prop :=
  ∀ (i : Instr) (rest : List Byte), i.wellFormed = true → decode (encode i ++ rest) = .ok i rest

/-- What the decoder accepts is well-formed and is exactly its encoding: no bit of a record is dropped and no record has
a second reading (log 1). -/
def Obligations.DecodedBytesAreTheEncodedRecord : Prop :=
  ∀ (bytes : List Byte) (i : Instr) (rest : List Byte),
    decode bytes = .ok i rest → i.wellFormed = true ∧ bytes = encode i ++ rest

/-- The bus tuples of programs P1, P2 and P4 of 95_test_vectors.md decode to their operations (record layout: log 1). -/
def Obligations.DecodesTheBusTuplesOfThePrograms : Prop :=
  decode [0x12, 0xD0, 0x01, 0x7F, 0x00, 0x00] = .ok (.busWrOutB 0xD012 0x7F) [] ∧
  decode [0x12, 0xD0, 0x04, 0x7F, 0x00, 0x00] = .ok (.busWrDdrB 0xD012 0x7F) [] ∧
  decode [0x11, 0xD0, 0x01, 0xA7, 0x00, 0x00] = .ok (.busWrCtrlA 0xD011 0xA7) [] ∧
  decode [0x11, 0xD0, 0x00, 0x00, 0x00, 0x00] = .ok (.busRdCtrlA 0xD011 false) [] ∧
  decode [0x10, 0xD0, 0x00, 0x01, 0x00, 0x00] = .ok (.busRdPortA 0xD010 true) [] ∧
  decode [0x1F, 0xD0, 0x01, 0x04, 0x00, 0x00] = .ok (.busWrCtrlB 0xD01F 0x04) [] ∧
  decode [0x00, 0x02, 0x01, 0xA9, 0x00, 0x00] = .ok (.busWrRam 0x0200 0xA9) [] ∧
  decode [0xFC, 0xFF, 0x02, 0x00, 0x00, 0x00] = .ok (.busRdRom 0xFFFC false) []

/-- 30_encoding.md section 2: the window and its registers as match and mask on the 16-bit address, and the four mirrors
of each register. -/
def Obligations.WindowRowsAreTheTablesMatchAndMask : Prop :=
  ∀ addr : Addr,
    (inWindow addr = true ↔ addr &&& 0xFFF0 = 0xD010) ∧
    ∀ sel : BitVec 2,
      (windowRow addr sel = true ↔ addr &&& 0xFFF3 = 0xD010 + sel.setWidth 16) ∧
      (windowRow addr sel = true ↔ ∃ m : Fin 4, addr.toNat = 0xD010 + 4 * m.val + sel.toNat)

/-! ## Steps, the invariant, totality -/

/-- A step runs the operation whose record is pending, on the state in which that record is taken away; with nothing
pending it does nothing, and bytes that are no record are refused by name (logs 1, 20). Where all that is pending is what
an agent may issue, the step is idle or runs an operation of some agent, and what stays pending is the agents' again
(00_scope.md R13; a record of kind int runs too, by the model's choice, log 27). -/
def Obligations.StepRunsThePendingOperation : Prop :=
  ∀ s : State,
    (∀ i rest, decode s.pending = .ok i rest → step s = exec i { s with pending := rest }) ∧
    (s.pending = [] → step s = .next s) ∧
    (∀ e, s.pending ≠ [] → decode s.pending = .reject e → step s = .refused (.notAnOperation e)) ∧
    (∀ t, s.issuedByAgents → step s = .next t →
      t.issuedByAgents ∧
      (s.pending = [] ∧ t = s ∨
        ∃ i agent rest, issuerOf i = some agent ∧ s.pending = encode i ++ rest ∧
          exec i { s with pending := rest } = .next t))

/-- The machine after reset meets the invariant. The default parameters are the spec's decisions and the model's
(logs 4 to 13); the canonical form of the RAM is the model's (log 23). -/
def Obligations.ResetMeetsTheInvariant : Prop := State.reset.Inv

/-- Every step keeps the invariant: RAM in canonical form (the model's form of the contents, log 23), images with their
bases and lengths (and, unless ROM is writable, their bytes), the grid printable (42_terminal.md section 5), the queue
within the capacity a platform set (00_scope.md section 3; what a full queue becomes is the platform's, log 12). -/
def Obligations.StepKeepsTheInvariant : Prop := ∀ s t : State, s.Inv → step s = .next t → t.Inv

/-- 60_exceptions.md R160: every operation is total, for every operand value and every state of a machine (one whose
configuration is valid, R161). -/
def Obligations.EveryOperationAnswersANextState : Prop :=
  ∀ (i : Instr) (s : State), configValid s.cfg = true → ∃ t, exec i s = .next t

/-! ## ROM images and bus reads -/

/-- 41_bus.md section 1: what an image claims, in the naturals; truncation cuts it short of 0xFFFA (D14). -/
def Obligations.AnImageClaimsItsRangeWithoutWrap : Prop :=
  ∀ (img : RomImage) (addr : Addr),
    (claims false img addr = true ↔
      img.base.toNat ≤ addr.toNat ∧ addr.toNat < img.base.toNat + img.bytes.length) ∧
    (claims true img addr = true ↔
      img.base.toNat ≤ addr.toNat ∧ addr.toNat < img.base.toNat + img.bytes.length ∧ addr.toNat < 0xFFFA)

/-- 41_bus.md section 2: a read of a claimed address gives the byte of the first image in insertion order that claims it,
and changes nothing: neither the PIA nor RAM is reached. -/
def Obligations.BusReadOfAClaimedAddressGivesTheFirstImagesByte : Prop :=
  ∀ (s : State) (addr : Addr) (readOnly : Bool) (i : Instr) (before after : List RomImage) (img : RomImage),
    i ∈ busReadRows addr readOnly →
    s.rom = before ++ img :: after →
    (∀ j ∈ before, claims s.cfg.romVectorTruncate j addr = false) →
    claims s.cfg.romVectorTruncate img addr = true →
    ∃ v, img.bytes[addr.toNat - img.base.toNat]? = some v ∧ exec i s = .next { s with result := .byte v }

/-- 40_pia.md R92: a data-port read clears both flags of its section and returns the port value, whatever the port mode
and whatever read_only says (R120, the spec's decision D15; log 24); the other section, the lines and the configuration
are unchanged; nothing is requested afterwards; a second read returns the same byte and changes nothing. -/
def Obligations.DataPortReadClearsBothFlagsAndReturnsThePort : Prop :=
  ∀ (s : State) (addr : Addr) (readOnly : Bool) (i : Instr) (k : Section),
    i ∈ busReadRows addr readOnly → s.reachesPia addr (dataSel k) →
    ∃ (t : State) (v : Byte),
      exec i s = .next t ∧
      t = { s.setSec k { s.sec k with cr := (s.sec k).cr &&& 0x3F } with result := .byte v } ∧
      v = ((s.sec k).outReg &&& (s.sec k).ddr) ||| ((s.sec k).inReg &&& ~~~(s.sec k).ddr) ∧
      ((s.sec k).ddr = 0x00 → v = (s.sec k).inReg) ∧
      ((s.sec k).ddr = 0xFF → v = (s.sec k).outReg) ∧
      t.irqLevel k = false ∧
      exec i t = .next t

/-- 40_pia.md R93: a control-register read returns the register verbatim, flags included, and changes nothing. -/
def Obligations.ControlRegisterReadIsVerbatimAndChangesNothing : Prop :=
  ∀ (s : State) (addr : Addr) (readOnly : Bool) (i : Instr) (k : Section),
    i ∈ busReadRows addr readOnly → s.reachesPia addr (controlSel k) →
    exec i s = .next { s with result := .byte (s.sec k).cr }

/-- 41_bus.md section 2: a read that reaches RAM returns the byte there and changes nothing. -/
def Obligations.RamReadReturnsTheByteAndChangesNothing : Prop :=
  ∀ (s : State) (addr : Addr) (readOnly : Bool) (i : Instr),
    i ∈ busReadRows addr readOnly → s.reachesRam addr → exec i s = .next { s with result := .byte (s.ramByte addr) }

/-- 41_bus.md section 3 and 40_pia.md section 5 (D15): the inspection path gives the byte a bus read of the address would
give, and changes nothing; PIA.PEEK gives the port value or the control register. -/
def Obligations.PeeksGiveTheByteAReadWouldGiveAndChangeNothing : Prop :=
  (∀ (s : State) (addr : Addr) (readOnly : Bool) (i : Instr), i ∈ busReadRows addr readOnly →
    ∃ v t, exec (.busPeek addr) s = .next { s with result := .byte v } ∧ exec i s = .next t ∧ t.result = .byte v) ∧
  (∀ (s : State) (k : Section),
    exec (.piaPeek (dataSel k)) s =
      .next { s with result := .byte (((s.sec k).outReg &&& (s.sec k).ddr) ||| ((s.sec k).inReg &&& ~~~(s.sec k).ddr)) } ∧
    exec (.piaPeek (controlSel k)) s = .next { s with result := .byte (s.sec k).cr })

/-! ## Bus writes -/

/-- 41_bus.md section 1 (D13): a write of a claimed address is taken by the first image in insertion order that claims
it; the byte is stored there if ROM is writable, and lost otherwise; RAM, the PIA and every other image are unchanged. -/
def Obligations.BusWriteOfAClaimedAddressStopsAtTheFirstImage : Prop :=
  ∀ (s : State) (addr : Addr) (data : Byte) (i : Instr) (before after : List RomImage) (img : RomImage),
    i ∈ busWriteRows addr data →
    s.rom = before ++ img :: after →
    (∀ j ∈ before, claims s.cfg.romVectorTruncate j addr = false) →
    claims s.cfg.romVectorTruncate img addr = true →
    (s.cfg.romWritable = false → exec i s = .next { s with result := .nothing }) ∧
    (s.cfg.romWritable = true →
      exec i s = .next
        { s with
          rom := before ++ { img with bytes := img.bytes.set (addr.toNat - img.base.toNat) data } :: after
          result := .nothing })

/-- 40_pia.md R95: with write-port mode clear, a data-register write sets the direction register and nothing else. -/
def Obligations.DataWriteOutsidePortModeSetsTheDirectionRegister : Prop :=
  ∀ (s : State) (addr : Addr) (data : Byte) (i : Instr) (k : Section),
    i ∈ busWriteRows addr data → s.reachesPia addr (dataSel k) → (s.cfgOf k).portMode = false →
    exec i s = .next { s.setSec k { s.sec k with ddr := data } with result := .nothing }

/-- 40_pia.md section 3 (D17, D23): in write-port mode a write of port A latches the byte and invokes callback A with the
port value; no line moves, nothing is queued. -/
def Obligations.PortAWriteLatchesAndInvokesItsCallback : Prop :=
  ∀ (s : State) (addr : Addr) (data : Byte) (i : Instr),
    i ∈ busWriteRows addr data → s.reachesPia addr 0 → (s.cfgOf .a).portMode = true →
    exec i s = .next
      { s with
        secA := { s.secA with outReg := data }
        trace := s.trace ++ [.out .a ((data &&& s.secA.ddr) ||| (s.secA.inReg &&& ~~~s.secA.ddr))]
        result := .nothing }

/-- 40_pia.md section 3 (D16, D24): in write-port mode a write of port B latches the byte, invokes callback B with the
port value, queues that value for the terminal, and moves CB2: down in handshake mode, down and up in pulse mode, not at
all in manual and input mode. A full queue of a platform that set a bound is as the platform makes it (log 12). -/
def Obligations.PortBWriteLatchesQueuesAndMovesCb2 : Prop :=
  ∀ (s : State) (addr : Addr) (data v : Byte) (i : Instr),
    i ∈ busWriteRows addr data → s.reachesPia addr 2 → (s.cfgOf .b).portMode = true →
    v = ((data &&& s.secB.ddr) ||| (s.secB.inReg &&& ~~~s.secB.ddr)) →
    ∃ q : List Byte,
      exec i s = .next
        { s with
          secB := { s.secB with
            outReg := data
            c2 := match (s.cfgOf .b).c2Mode with
              | .handshake => .fall
              | .pulse => .rise
              | .manual _ => s.secB.c2
              | .input _ _ => s.secB.c2 }
          term := { s.term with queue := q }
          trace := s.trace ++ [.out .b v] ++
            match (s.cfgOf .b).c2Mode with
              | .handshake => [.lineOut .b .fall]
              | .pulse => [.lineOut .b .fall, .lineOut .b .rise]
              | .manual _ => []
              | .input _ _ => []
          result := .nothing } ∧
      (s.queueHasRoom → q = s.term.queue ++ [v])

/-- 40_pia.md section 3 (D18, D28): a control-register write stores the six bits, drives line 2 to the level of manual
mode if that is selected and leaves it alone otherwise, and signals a request if the section's level now holds. -/
def Obligations.ControlWriteStoresDrivesAndEvaluates : Prop :=
  ∀ (s : State) (addr : Addr) (data cr' : Byte) (cfg' : Cfg) (i : Instr) (k : Section),
    i ∈ busWriteRows addr data → s.reachesPia addr (controlSel k) →
    cr' = ((s.sec k).cr &&& 0xC0) ||| (data &&& 0x3F) → cfg' = decodeCfg s.cfg.cfgLayout cr' →
    exec i s = .next
      { s.setSec k { s.sec k with
          cr := cr'
          c2 := match cfg'.c2Mode with
            | .manual level => level
            | .handshake => (s.sec k).c2
            | .pulse => (s.sec k).c2
            | .input _ _ => (s.sec k).c2 } with
        trace := s.trace ++
          (match cfg'.c2Mode with
            | .manual level => [.lineOut k level]
            | .handshake => []
            | .pulse => []
            | .input _ _ => []) ++
          (if irqLevelOf cfg' cr' then requestEvents s.cfg.irqRouting k else [])
        result := .nothing }

/-- 30_encoding.md R75: a control-register write stores bits 5:0 and leaves the flag bits 7:6 as they were; the
configuration is the one the layout gives the six bits written. -/
def Obligations.ControlWriteStoresSixBitsAndKeepsTheFlags : Prop :=
  ∀ (s : State) (addr : Addr) (data : Byte) (i : Instr) (k : Section),
    i ∈ busWriteRows addr data → s.reachesPia addr (controlSel k) →
    ∃ t, exec i s = .next t ∧
      (t.sec k).cr = ((s.sec k).cr &&& 0xC0) ||| (data &&& 0x3F) ∧
      (∀ j, j < 6 → (t.sec k).cr.getLsbD j = data.getLsbD j) ∧
      (∀ j, 6 ≤ j → (t.sec k).cr.getLsbD j = (s.sec k).cr.getLsbD j) ∧
      t.cfgOf k = s.cfg.cfgLayout[(data.setWidth 6).toNat]'((data.setWidth 6).isLt)

/-- 20_memory.md section 3: a write that reaches RAM stores its byte and no other, a read of that address then returns
it, and nothing else changes. The premise is the model's canonical form of the RAM, which every step keeps (log 23). -/
def Obligations.RamWriteStoresOneByteAndReadsBack : Prop :=
  ∀ (s : State) (addr : Addr) (data : Byte) (readOnly : Bool) (i j : Instr),
    i ∈ busWriteRows addr data → j ∈ busReadRows addr readOnly → s.reachesRam addr → Memory.wf s.ram = true →
    ∃ t, exec i s = .next t ∧
      t = { s with ram := t.ram, result := .nothing } ∧
      t.ramByte addr = data ∧
      (∀ a, a ≠ addr → t.ramByte a = s.ramByte a) ∧
      exec j t = .next { t with result := .byte data }

/-! ## Clock, reset, queries, probes -/

/-- 41_bus.md section 3: BUS.CLK advances the CPU engine and counts, without a bound (the spec's decision D6; log 21);
nothing else changes. -/
def Obligations.BusClkCountsAndAdvancesTheCpu : Prop :=
  ∀ s : State,
    exec .busClk s = .next { s with cycles := s.cycles + 1, trace := s.trace ++ [.cpuClock], result := .nothing }

/-- 41_bus.md R116: BUS.RST resets the CPU engine and zeroes the counter; the PIA, RAM and the terminal are unchanged. -/
def Obligations.BusRstResetsTheCpuAndTheCounterOnly : Prop :=
  ∀ s : State, exec .busRst s = .next { s with cycles := 0, trace := s.trace ++ [.cpuReset], result := .nothing }

/-- 41_bus.md section 3 (D26): BUS.ROMLOW and BUS.ROMHIGH are the lowest and the highest address an image claims, none if
no address is claimed, and change nothing. -/
def Obligations.RomLowAndHighAreTheExtremeClaimedAddresses : Prop :=
  ∀ s : State, s.rom.all imageValid = true →
    ∃ lo hi : Option Nat,
      exec .busRomLow s = .next { s with result := .addr lo } ∧
      exec .busRomHigh s = .next { s with result := .addr hi } ∧
      (lo = none ↔ ∀ a, s.romClaims a = false) ∧
      (hi = none ↔ ∀ a, s.romClaims a = false) ∧
      (∀ n, lo = some n → (∃ a : Addr, a.toNat = n ∧ s.romClaims a = true) ∧ ∀ a, s.romClaims a = true → n ≤ a.toNat) ∧
      (∀ n, hi = some n → (∃ a : Addr, a.toNat = n ∧ s.romClaims a = true) ∧ ∀ a, s.romClaims a = true → a.toNat ≤ n)

/-- 41_bus.md R111: a probe of an installed image gives the byte at the address less the base where the image claims it,
"not mine" elsewhere, and changes nothing. -/
def Obligations.ProbeReadGivesTheImagesByteOrNotMine : Prop :=
  ∀ (s : State) (n : Nat) (img : RomImage) (addr : Addr), s.rom[n]? = some img →
    (claims s.cfg.romVectorTruncate img addr = true →
      ∃ v, img.bytes[addr.toNat - img.base.toNat]? = some v ∧
        exec (.romProbeRd n addr) s = .next { s with result := .probe (some v) }) ∧
    (claims s.cfg.romVectorTruncate img addr = false →
      exec (.romProbeRd n addr) s = .next { s with result := .probe none })

/-- 41_bus.md section 1 (D13): a write probe is accepted exactly where the image claims the address; it stores only if ROM
is writable; a number of no installed image is "not mine" and rejected (log 15). -/
def Obligations.ProbeWriteIsAcceptedWhereClaimed : Prop :=
  ∀ (s : State) (n : Nat) (addr : Addr) (data : Byte),
    (∀ img, s.rom[n]? = some img → claims s.cfg.romVectorTruncate img addr = false →
      exec (.romProbeWr n addr data) s = .next { s with result := .accepted false }) ∧
    (∀ img, s.rom[n]? = some img → claims s.cfg.romVectorTruncate img addr = true → s.cfg.romWritable = false →
      exec (.romProbeWr n addr data) s = .next { s with result := .accepted true }) ∧
    (∀ img, s.rom[n]? = some img → claims s.cfg.romVectorTruncate img addr = true → s.cfg.romWritable = true →
      exec (.romProbeWr n addr data) s = .next
        { s with
          rom := s.rom.set n { img with bytes := img.bytes.set (addr.toNat - img.base.toNat) data }
          result := .accepted true }) ∧
    (s.rom[n]? = none →
      exec (.romProbeWr n addr data) s = .next { s with result := .accepted false } ∧
      exec (.romProbeRd n addr) s = .next { s with result := .probe none })

/-! ## The PIA's port side and its requests -/

/-- 40_pia.md section 1 (D2, D32): the level holds exactly when a pending flag of the section is enabled. -/
def Obligations.IrqLevelIsAnEnabledPendingFlag : Prop :=
  ∀ (s : State) (k : Section),
    s.irqLevel k = true ↔
      ((s.sec k).cr.getLsbD 7 = true ∧ (s.cfgOf k).irq1En = true) ∨
      ((s.sec k).cr.getLsbD 6 = true ∧ ∃ edge, (s.cfgOf k).c2Mode = .input edge true)

/-- 40_pia.md R98: PIA.SETIN latches the byte into the input register and does nothing else: no flag, line, event or
request; the port value shows it at once at every bit whose direction bit is 0; a second one overwrites the first. -/
def Obligations.SetInLatchesTheInputRegisterOnly : Prop :=
  ∀ (s : State) (k : Section) (v : Byte),
    ∃ t : State,
      exec (.piaSetIn k v) s = .next t ∧
      t = { s.setSec k { s.sec k with inReg := v } with result := .nothing } ∧
      (∀ j, j < 8 → (s.sec k).ddr.getLsbD j = false → (t.port k).getLsbD j = v.getLsbD j) ∧
      ∀ w, exec (.piaSetIn k w) t = exec (.piaSetIn k w) s

/-- 40_pia.md section 4 (D28, D32): an active transition of line 1 sets flag 1 whether or not it is enabled, signals a
request if the level then holds, and in handshake mode raises line 2; nothing else changes. -/
def Obligations.ActiveLine1TransitionSetsFlag1AndRaisesLine2InHandshake : Prop :=
  ∀ (s : State) (k : Section) (sig : Signal),
    sig ≠ (s.sec k).c1 → sig = (s.cfgOf k).c1Edge →
    exec (.piaSetC1 k sig) s = .next
      { s.setSec k { s.sec k with
          c1 := sig
          cr := (s.sec k).cr ||| 0x80
          c2 := if (s.cfgOf k).c2Mode = .handshake then .rise else (s.sec k).c2 } with
        trace := s.trace ++
          (if irqLevelOf (s.cfgOf k) ((s.sec k).cr ||| 0x80) then requestEvents s.cfg.irqRouting k else []) ++
          (if (s.cfgOf k).c2Mode = .handshake then [.lineOut k .rise] else [])
        result := .nothing }

/-- 40_pia.md section 4 (D2, D32): an active transition of an input line 2 sets flag 2 whether or not it is enabled and
signals a request if the level then holds; nothing else changes. -/
def Obligations.ActiveLine2TransitionSetsFlag2 : Prop :=
  ∀ (s : State) (k : Section) (sig : Signal) (enabled : Bool),
    (s.cfgOf k).c2Mode = .input sig enabled → sig ≠ (s.sec k).c2 →
    exec (.piaSetC2 k sig) s = .next
      { s.setSec k { s.sec k with c2 := sig, cr := (s.sec k).cr ||| 0x40 } with
        trace := s.trace ++
          (if irqLevelOf (s.cfgOf k) ((s.sec k).cr ||| 0x40) then requestEvents s.cfg.irqRouting k else [])
        result := .nothing }

/-- 40_pia.md section 4 (D19): any other assignment of a line moves the line and does nothing else: no transition, the
inactive edge, or line 2 in an output mode. -/
def Obligations.InactiveLineAssignmentsMoveTheLineOnly : Prop :=
  ∀ (s : State) (k : Section) (sig : Signal),
    (sig = (s.sec k).c1 ∨ sig ≠ (s.cfgOf k).c1Edge →
      exec (.piaSetC1 k sig) s = .next { s.setSec k { s.sec k with c1 := sig } with result := .nothing }) ∧
    (sig = (s.sec k).c2 ∨ (∀ enabled, (s.cfgOf k).c2Mode ≠ .input sig enabled) →
      exec (.piaSetC2 k sig) s = .next { s.setSec k { s.sec k with c2 := sig } with result := .nothing })

/-! ## The terminal -/

/-- 30_encoding.md section 3 (D30): the classes of a terminal byte by its value before the fold, and the fold itself. -/
def Obligations.TerminalByteClassesByOriginalValue : Prop :=
  ∀ b : Byte,
    (byteClass (foldByte b) = .cr ↔ b = 0x0D) ∧
    (byteClass (foldByte b) = .print ↔ (0x20 ≤ b.toNat ∧ b.toNat ≤ 0x5F) ∨ (0x61 ≤ b.toNat ∧ b.toNat ≤ 0x7A)) ∧
    (0x61 ≤ b.toNat ∧ b.toNat ≤ 0x7A → (foldByte b).toNat = b.toNat - 0x20) ∧
    (¬(0x61 ≤ b.toNat ∧ b.toNat ≤ 0x7A) → foldByte b = b)

/-- 42_terminal.md section 1 (D9): TERM.ENQ appends the byte at the back; a platform's bound is never exceeded (log 12). -/
def Obligations.EnqueueAppendsAtTheBackOnly : Prop :=
  ∀ (s : State) (v : Byte),
    ∃ q : List Byte,
      exec (.termEnq v) s = .next { s with term := { s.term with queue := q }, result := .nothing } ∧
      (s.queueHasRoom → q = s.term.queue ++ [v]) ∧
      (∀ n, s.cfg.queueCap = some n → s.term.queue.length ≤ n → q.length ≤ n)

/-- 42_terminal.md section 4 (D10): on an empty queue TERM.STEP and TERM.DRAIN do nothing at all. -/
def Obligations.StepAndDrainOfAnEmptyQueueDoNothing : Prop :=
  ∀ s : State, s.term.queue = [] →
    exec .termStep s = .next { s with result := .nothing } ∧ exec .termDrain s = .next { s with result := .nothing }

/-- 42_terminal.md section 3: a printable byte is stored at the cursor and rendered there, the cursor moves one column on
and from column 39 to the next row, and the new cursor cell shows the inverted glyph of its stored character; only the
terminal changes. -/
def Obligations.StepStoresAPrintableByteAndAdvances : Prop :=
  ∀ (s : State) (b : Byte) (rest : List Byte) (x' : Fin gridCols) (y' : Fin gridRows),
    s.term.queue = b :: rest →
    0x20 ≤ (foldByte b).toNat → (foldByte b).toNat ≤ 0x5F →
    (x'.val = s.term.cur.x.val + 1 ∧ y' = s.term.cur.y ∨
      s.term.cur.x.val = 39 ∧ x'.val = 0 ∧ y'.val = s.term.cur.y.val + 1) →
    ∃ t : Terminal,
      exec .termStep s = .next { s with term := t, result := .nothing } ∧
      t.queue = rest ∧ t.cur = { x := x', y := y' } ∧
      (∀ r c, cellAt t.grid r c =
        if r = s.term.cur.y ∧ c = s.term.cur.x then foldByte b else cellAt s.term.grid r c) ∧
      (∀ r c, cellAt t.pix r c =
        if r = y' ∧ c = x' then invertGlyph (glyphOf s.cfg.glyph (cellAt s.term.grid r c))
        else if r = s.term.cur.y ∧ c = s.term.cur.x then glyphOf s.cfg.glyph (foldByte b)
        else cellAt s.term.pix r c)

/-- 42_terminal.md section 3: a carriage return above the last row stores nothing, erases the cursor, moves it to column 0
of the next row and draws it there; only the terminal changes. -/
def Obligations.StepTakesACarriageReturn : Prop :=
  ∀ (s : State) (rest : List Byte) (y' : Fin gridRows),
    s.term.queue = 0x0D :: rest → y'.val = s.term.cur.y.val + 1 →
    ∃ t : Terminal,
      exec .termStep s = .next { s with term := t, result := .nothing } ∧
      t.queue = rest ∧ t.cur = { x := 0, y := y' } ∧ t.grid = s.term.grid ∧
      (∀ r c, cellAt t.pix r c =
        if r = y' ∧ c = 0 then invertGlyph (glyphOf s.cfg.glyph (cellAt s.term.grid r c))
        else if r = s.term.cur.y ∧ c = s.term.cur.x then glyphOf s.cfg.glyph (cellAt s.term.grid r c)
        else cellAt s.term.pix r c)

/-- 42_terminal.md section 3 (D30): any other byte stores nothing and leaves the cursor; the cursor cell is erased and
drawn again; only the terminal changes. -/
def Obligations.StepIgnoresOtherBytes : Prop :=
  ∀ (s : State) (b : Byte) (rest : List Byte),
    s.term.queue = b :: rest → foldByte b ≠ 0x0D → ¬(0x20 ≤ (foldByte b).toNat ∧ (foldByte b).toNat ≤ 0x5F) →
    ∃ t : Terminal,
      exec .termStep s = .next { s with term := t, result := .nothing } ∧
      t.queue = rest ∧ t.cur = s.term.cur ∧ t.grid = s.term.grid ∧
      (∀ r c, cellAt t.pix r c =
        if r = s.term.cur.y ∧ c = s.term.cur.x then invertGlyph (glyphOf s.cfg.glyph (cellAt s.term.grid r c))
        else cellAt s.term.pix r c)

/-- 42_terminal.md section 3 (D11): a carriage return on the last row, and a printable byte in its last column, scroll:
the rows move up by one with what the byte wrote, the old row 0 is lost, the last row is spaces with clear pixels but for
the cursor at (0, 23); only the terminal changes. -/
def Obligations.StepScrollsOnTheLastRow : Prop :=
  ∀ (s : State) (b : Byte) (rest : List Byte) (written : Fin gridRows → Fin gridCols → Byte),
    s.term.queue = b :: rest → s.term.cur.y.val = 23 →
    (foldByte b = 0x0D ∧ written = (fun r c => cellAt s.term.grid r c) ∨
      0x20 ≤ (foldByte b).toNat ∧ (foldByte b).toNat ≤ 0x5F ∧ s.term.cur.x.val = 39 ∧
        written = (fun r c => if r = s.term.cur.y ∧ c = s.term.cur.x then foldByte b else cellAt s.term.grid r c)) →
    ∃ t : Terminal,
      exec .termStep s = .next { s with term := t, result := .nothing } ∧
      t.queue = rest ∧ t.cur = { x := 0, y := 23 } ∧
      (∀ r c, cellAt t.grid r c = if h : r.val + 1 < gridRows then written ⟨r.val + 1, h⟩ c else 0x20) ∧
      (∀ r c, cellAt t.pix r c =
        if h : r.val + 1 < gridRows then
          if r.val = 22 ∧ c = s.term.cur.x then glyphOf s.cfg.glyph (written ⟨r.val + 1, h⟩ c)
          else cellAt s.term.pix ⟨r.val + 1, h⟩ c
        else if c = 0 then invertGlyph (glyphOf s.cfg.glyph 0x20) else blankGlyph)

/-- 42_terminal.md section 4 (D10): TERM.DRAIN empties the queue, changes the terminal only, and is a TERM.STEP followed
by a TERM.DRAIN of what is left. -/
def Obligations.DrainIsStepsUntilTheQueueIsEmpty : Prop :=
  ∀ s : State,
    (∃ t : Terminal, exec .termDrain s = .next { s with term := t, result := .nothing } ∧ t.queue = []) ∧
    (s.term.queue ≠ [] → ∃ u, exec .termStep s = .next u ∧ exec .termDrain s = exec .termDrain u)

/-- 42_terminal.md section 4 (D8, D11): TERM.CLEAR makes every cell a space and every pixel 0 and puts the cursor at
(0, 0); the queue and everything outside the terminal are unchanged. -/
def Obligations.ClearBlanksGridAndSurfaceAndKeepsTheQueue : Prop :=
  ∀ s : State, ∃ t : Terminal,
    exec .termClear s = .next { s with term := t, result := .nothing } ∧
    t.queue = s.term.queue ∧ t.cur = { x := 0, y := 0 } ∧
    (∀ r c, cellAt t.grid r c = 0x20) ∧
    (∀ r c p q, glyphPixel (cellAt t.pix r c) p q = false)

/-- 42_terminal.md section 4 (D10): with a byte waiting in an unbounded queue, TERM.STEP commutes with every operation
that is not the terminal's own, the resets among them: both orders end in the same state, and the other operation gives
back the same result in both. -/
def Obligations.TerminalStepCommutesWithTheOtherOperations : Prop :=
  ∀ (i : Instr) (s t u : State),
    isTerminalOp i = false → s.cfg.queueCap = none → s.term.queue ≠ [] →
    exec .termStep s = .next t → exec i s = .next u →
    ∃ t' u', exec i t = .next t' ∧ exec .termStep u = .next u' ∧
      t' = { u' with result := t'.result } ∧ t'.result = u.result

/-- 10_state.md section 4, 42_terminal.md section 5: the terminal's operations change the terminal only; the grid, the
cursor and the surface are changed by TERM.STEP, TERM.DRAIN, TERM.CLEAR and the resets only; and an operation that an
agent may issue (00_scope.md R10, R13: TERM.ENQ is none, log 27) adds to an unbounded queue exactly the bytes of its
Out(B) events, after taking bytes from the front at most. -/
def Obligations.TerminalAndTheRestAreSeparate : Prop :=
  ∀ (i : Instr) (s t : State), exec i s = .next t →
    (isTerminalOp i = true → t = { s with term := t.term, result := .nothing }) ∧
    (isTerminalOp i = false → isSystemReset i = false →
      t.term.grid = s.term.grid ∧ t.term.cur = s.term.cur ∧ t.term.pix = s.term.pix) ∧
    (∀ v, i = .termEnq v → t.term.grid = s.term.grid ∧ t.term.cur = s.term.cur ∧ t.term.pix = s.term.pix) ∧
    ((issuerOf i).isSome = true → i ≠ .sysPowerOn → s.cfg.queueCap = none →
      ∃ events n, t.trace = s.trace ++ events ∧ t.term.queue = s.term.queue.drop n ++ portBBytes events)

/-! ## The keyboard -/

/-- 43_keyboard.md R151: a key found in the table that shift chooses, with a code in [0x01, 0x5F], is the strobe sequence
of four PIA operations; any other key does nothing at all. -/
def Obligations.KeyDownIsTheStrobeSequenceOrNothing : Prop :=
  ∀ (s : State) (key : Nat) (shift : Bool),
    (∀ c, (if shift then s.cfg.keymapShifted else s.cfg.keymapUnshifted).lookup key = some c →
      0x01 ≤ c.toNat → c.toNat ≤ 0x5F →
      ∃ s₁ s₂ s₃ t, exec (.piaSetC1 .a .fall) s = .next s₁ ∧ exec (.piaSetIn .a (c ||| 0x80)) s₁ = .next s₂ ∧
        exec (.piaSetC1 .a .rise) s₂ = .next s₃ ∧ exec (.piaSetC1 .a .fall) s₃ = .next t ∧
        exec (.keyDown key shift) s = .next t) ∧
    ((∀ c, (if shift then s.cfg.keymapShifted else s.cfg.keymapUnshifted).lookup key = some c →
        ¬(0x01 ≤ c.toNat ∧ c.toNat ≤ 0x5F)) →
      exec (.keyDown key shift) s = .next { s with result := .nothing })

/-- 43_keyboard.md R152, 40_pia.md section 4 (the order of events D28, one signalling an evaluation D32; log 24): what an
accepted key leaves. The code with bit 7 set is in IR[A], CA1 is Fall and flag 1 is
set, whatever the configuration; with a rising active edge there is one evaluation, with a falling one there is one for
the last Fall and one more if CA1 was Rise; in handshake mode each active edge raises CA2; nothing else changes. -/
def Obligations.AcceptedKeyLatchesItsCodeAndSetsFlag1 : Prop :=
  ∀ (s : State) (key : Nat) (shift : Bool) (c : Byte) (edge : List Event),
    acceptedCode s.cfg key shift = some c →
    edge = (if irqLevelOf (s.cfgOf .a) (s.secA.cr ||| 0x80) then requestEvents s.cfg.irqRouting .a else []) ++
      (if (s.cfgOf .a).c2Mode = .handshake then [.lineOut .a .rise] else []) →
    exec (.keyDown key shift) s = .next
      { s with
        secA := { s.secA with
          inReg := c ||| 0x80
          cr := s.secA.cr ||| 0x80
          c1 := .fall
          c2 := if (s.cfgOf .a).c2Mode = .handshake then .rise else s.secA.c2 }
        trace := s.trace ++
          (if (s.cfgOf .a).c1Edge = .fall ∧ s.secA.c1 = .rise then edge ++ edge else edge)
        result := .nothing }

/-- 43_keyboard.md R153 (D25): a batch is the KEY.DOWN of its first event that is found with a code in range; events
before it are skipped, events after it dropped; a batch without one does nothing. -/
def Obligations.KeyBatchIsItsFirstMatchingKey : Prop :=
  ∀ (s : State) (before after : List KeyEvent) (e : KeyEvent),
    (∀ d ∈ before, acceptedCode s.cfg d.key d.shift = none) →
    ((acceptedCode s.cfg e.key e.shift).isSome = true →
      exec (.keyBatch (before ++ e :: after)) s = exec (.keyDown e.key e.shift) s) ∧
    exec (.keyBatch before) s = .next { s with result := .nothing }

/-- 70_reset_and_hazards.md section 3: a second key before the program read the first overwrites it; the flag stays set,
and one read of port A then returns the second key and clears the flag. -/
def Obligations.SecondKeyOverwritesAnUnreadKey : Prop :=
  ∀ (s : State) (key key' : Nat) (shift shift' : Bool) (c c' : Byte) (addr : Addr) (readOnly : Bool) (i : Instr),
    acceptedCode s.cfg key shift = some c → acceptedCode s.cfg key' shift' = some c' →
    i ∈ busReadRows addr readOnly → s.reachesPia addr 0 →
    ∃ t u w, exec (.keyDown key shift) s = .next t ∧ exec (.keyDown key' shift') t = .next u ∧ exec i u = .next w ∧
      flag1 t.secA.cr = true ∧ flag1 u.secA.cr = true ∧ flag1 w.secA.cr = false ∧
      w.result = .byte ((s.secA.outReg &&& s.secA.ddr) ||| ((c' ||| 0x80) &&& ~~~s.secA.ddr))

/-! ## Power-on and system reset -/

/-- 70_reset_and_hazards.md section 1 (D3, D4, D5, D33; logs 4, 5, 6, 14): what power-on leaves; a configuration with an
ill-formed image is not started. -/
def Obligations.PowerOnEstablishesTheResetValues : Prop :=
  ∀ s : State,
    (configValid s.cfg = true →
      ∃ t : State, exec .sysPowerOn s = .next t ∧
        (∀ k, t.sec k = PiaSection.mk 0x00 0x00 0x00 0x00 s.cfg.resetLine s.cfg.resetLine) ∧
        t.ram = s.cfg.ramInit ∧ t.rom = s.cfg.romImages ∧ t.cycles = 0 ∧ t.trace = [] ∧
        t.term.queue = [] ∧ t.term.cur = { x := 0, y := 0 } ∧
        (∀ r c, cellAt t.term.grid r c = 0x20) ∧ (∀ r c p q, glyphPixel (cellAt t.term.pix r c) p q = false) ∧
        t.cfg = s.cfg ∧ t.pending = s.pending ∧ t.result = .nothing) ∧
    (configValid s.cfg = false → exec .sysPowerOn s = .refused .invalidConfiguration)

/-- 70_reset_and_hazards.md section 1 (D3, D4, D7): what a system reset leaves; RAM, the images and the trace's history
are kept, and the CPU is told once. -/
def Obligations.SystemResetKeepsRamAndHistory : Prop :=
  ∀ s : State,
    ∃ t : State, exec .sysReset s = .next t ∧
      (∀ k, t.sec k = PiaSection.mk 0x00 0x00 0x00 0x00 s.cfg.resetLine s.cfg.resetLine) ∧
      (∀ a, t.ramByte a = s.ramByte a) ∧ t.ram = s.ram ∧ t.rom = s.rom ∧ t.cycles = 0 ∧
      t.trace = s.trace ++ [.cpuReset] ∧
      t.term.queue = [] ∧ t.term.cur = { x := 0, y := 0 } ∧
      (∀ r c, cellAt t.term.grid r c = 0x20) ∧ (∀ r c p q, glyphPixel (cellAt t.term.pix r c) p q = false) ∧
      t.cfg = s.cfg ∧ t.pending = s.pending ∧ t.result = .nothing

/-! ## Rules of the whole machine -/

/-- 10_state.md section 2 (D1): a flag of a section that was set is clear afterwards only if the operation is a bus read
that reached that section's data port, or a reset; then both flags of the section are clear. -/
def Obligations.FlagsAreClearedOnlyByADataPortReadOrReset : Prop :=
  ∀ (i : Instr) (s t : State) (k : Section), exec i s = .next t →
    (flag1 (s.sec k).cr = true ∧ flag1 (t.sec k).cr = false ∨ flag2 (s.sec k).cr = true ∧ flag2 (t.sec k).cr = false) →
    (isSystemReset i = true ∨
      ∃ addr readOnly, i ∈ busReadRows addr readOnly ∧ s.reachesPia addr (dataSel k)) ∧
    flag1 (t.sec k).cr = false ∧ flag2 (t.sec k).cr = false

/-- 10_state.md section 2 (D1): a flag of a section becomes set only by a transition of its own line that matches the
configured edge: PIA.SETC1 or PIA.SETC2 of that section, or for flag 1 of section A an accepted key. -/
def Obligations.FlagsAreSetOnlyByAMatchingTransition : Prop :=
  ∀ (i : Instr) (s t : State) (k : Section), exec i s = .next t →
    (flag1 (s.sec k).cr = false → flag1 (t.sec k).cr = true →
      (i = .piaSetC1 k (s.cfgOf k).c1Edge ∧ (s.sec k).c1 ≠ (s.cfgOf k).c1Edge) ∨
      (k = .a ∧ ((∃ key shift c, i = .keyDown key shift ∧ acceptedCode s.cfg key shift = some c) ∨
        ∃ events c, i = .keyBatch events ∧ firstMatch s.cfg events = some c))) ∧
    (flag2 (s.sec k).cr = false → flag2 (t.sec k).cr = true →
      ∃ edge enabled, (s.cfgOf k).c2Mode = .input edge enabled ∧ (s.sec k).c2 ≠ edge ∧ i = .piaSetC2 k edge)

/-- 10_state.md sections 2 and 4: which operations write the output, input and direction registers, the configuration
bits and control line 1 of a section. -/
def Obligations.RegistersAreWrittenOnlyByTheirOwnOperations : Prop :=
  ∀ (i : Instr) (s t : State) (k : Section), exec i s = .next t → isSystemReset i = false →
    ((t.sec k).outReg ≠ (s.sec k).outReg →
      ∃ addr data, i ∈ busWriteRows addr data ∧ s.reachesPia addr (dataSel k) ∧ (s.cfgOf k).portMode = true ∧
        (t.sec k).outReg = data) ∧
    ((t.sec k).ddr ≠ (s.sec k).ddr →
      ∃ addr data, i ∈ busWriteRows addr data ∧ s.reachesPia addr (dataSel k) ∧ (s.cfgOf k).portMode = false ∧
        (t.sec k).ddr = data) ∧
    ((t.sec k).cr &&& 0x3F ≠ (s.sec k).cr &&& 0x3F →
      ∃ addr data, i ∈ busWriteRows addr data ∧ s.reachesPia addr (controlSel k)) ∧
    ((t.sec k).inReg ≠ (s.sec k).inReg →
      (∃ v, i = .piaSetIn k v) ∨ (k = .a ∧ ((∃ key shift, i = .keyDown key shift) ∨ ∃ events, i = .keyBatch events))) ∧
    ((t.sec k).c1 ≠ (s.sec k).c1 →
      (∃ sig, i = .piaSetC1 k sig) ∨ (k = .a ∧ ((∃ key shift, i = .keyDown key shift) ∨ ∃ events, i = .keyBatch events)))

/-- 40_pia.md sections 3, 4 and 6 (D16 to D20): control line 2 of a section moves only by PIA.SETC2, by a control write
that selects a manual level, by the automatic raise in handshake mode, and for section B by a port write in handshake or
pulse mode; nothing drops CA2 by itself. -/
def Obligations.ControlLine2MovesOnlyAsConfigured : Prop :=
  ∀ (i : Instr) (s t : State) (k : Section), exec i s = .next t → isSystemReset i = false →
    (t.sec k).c2 ≠ (s.sec k).c2 →
    i = .piaSetC2 k (t.sec k).c2 ∨
    (∃ addr data, i ∈ busWriteRows addr data ∧ s.reachesPia addr (controlSel k) ∧
      (t.cfgOf k).c2Mode = .manual (t.sec k).c2) ∨
    ((s.cfgOf k).c2Mode = .handshake ∧ (t.sec k).c2 = .rise ∧
      (i = .piaSetC1 k (s.cfgOf k).c1Edge ∨
        k = .a ∧ ((∃ key shift, i = .keyDown key shift) ∨ ∃ events, i = .keyBatch events))) ∨
    (k = .b ∧ ∃ addr data, i ∈ busWriteRows addr data ∧ s.reachesPia addr 2 ∧ (s.cfgOf .b).portMode = true ∧
      ((s.cfgOf .b).c2Mode = .handshake ∧ t.secB.c2 = .fall ∨ (s.cfgOf .b).c2Mode = .pulse ∧ t.secB.c2 = .rise))

/-- 10_state.md section 3, 60_exceptions.md section 4 (D6): the counter counts BUS.CLK, is zeroed by the resets, and
nothing else changes it. -/
def Obligations.TheCounterCountsClocksSinceReset : Prop :=
  ∀ (i : Instr) (s t : State), exec i s = .next t →
    t.cycles = (if i = .busClk then s.cycles + 1 else if i = .busRst ∨ isSystemReset i = true then 0 else s.cycles)

/-- 40_pia.md section 1 (D32): whenever an operation signals a request of a section, that section's level holds in the
state the operation leaves. -/
def Obligations.AnIrqEventMeansTheLevelHolds : Prop :=
  ∀ (i : Instr) (s t : State) (k : Section) (events : List Event), exec i s = .next t →
    t.trace = s.trace ++ events → Event.irq k ∈ events → t.irqLevel k = true

/-- 10_state.md section 6 (the trace is the spec's decision D22; that it has no bound is the model's choice, log 25):
events are appended and never removed, but for power-on. -/
def Obligations.TheTraceOnlyGrows : Prop :=
  ∀ (i : Instr) (s t : State), exec i s = .next t → i ≠ .sysPowerOn → ∃ events, t.trace = s.trace ++ events

/-- 10_state.md sections 3 and 8: no operation changes a parameter, a table, or the base or length of an image; an image's
bytes change only while ROM is writable, by a bus write or a write probe, or by power-on, which restores the installed
images; and no operation touches the pending operations. The parameters as one record of the state are the model's choice
(log 11), and so are the pending operations (log 1). -/
def Obligations.TablesAndImageShapesNeverChange : Prop :=
  ∀ (i : Instr) (s t : State), exec i s = .next t →
    t.cfg = s.cfg ∧ t.pending = s.pending ∧
    (i ≠ .sysPowerOn → romShape t.rom = romShape s.rom) ∧
    (i = .sysPowerOn → t.rom = s.cfg.romImages) ∧
    (i ≠ .sysPowerOn → t.rom ≠ s.rom → s.cfg.romWritable = true ∧
      ((∃ addr data, i ∈ busWriteRows addr data) ∨ ∃ n addr data, i = .romProbeWr n addr data))

/-- 20_memory.md section 3: the frame of RAM. Only power-on and a bus write that reaches RAM at that very address change a
byte of RAM; every other byte reads as before. -/
def Obligations.RamChangesOnlyAtTheAddressWritten : Prop :=
  ∀ (i : Instr) (s t : State) (a : Addr), exec i s = .next t → i ≠ .sysPowerOn →
    (∀ data, i ∈ busWriteRows a data → ¬s.reachesRam a) → t.ramByte a = s.ramByte a

/-- 20_memory.md section 3: no operation observes a byte of RAM that an image or the window shadows. From states that
agree but for such bytes, every operation goes to states that agree so, with the same result and the same events. The
premises are the model's canonical form of the RAM, which every step keeps (log 23). -/
def Obligations.ShadowedRamIsNeverObserved : Prop :=
  ∀ (i : Instr) (s t s' : State), Memory.wf s.ram = true → Memory.wf t.ram = true → AgreeOffShadow s t →
    exec i s = .next s' → ∃ t', exec i t = .next t' ∧ AgreeOffShadow s' t'

/-! ## Parameters and tables -/

/-- 10_state.md section 2 (D1, D2; PRESUMED for the chip family, log 7): what each bit of a control register configures
under the default layout. -/
def Obligations.DefaultLayoutReadsEachConfigurationBit : Prop :=
  ∀ cr : Byte,
    (decodeCfg standardLayout cr).irq1En = cr.getLsbD 0 ∧
    (decodeCfg standardLayout cr).c1Edge = (if cr.getLsbD 1 then .rise else .fall) ∧
    (decodeCfg standardLayout cr).portMode = cr.getLsbD 2 ∧
    (decodeCfg standardLayout cr).c2Mode =
      match cr.getLsbD 5, cr.getLsbD 4, cr.getLsbD 3 with
      | false, false, en  => .input .fall en
      | false, true, en   => .input .rise en
      | true, false, false => .handshake
      | true, false, true => .pulse
      | true, true, false => .manual .fall
      | true, true, true  => .manual .rise

/-- 42_terminal.md section 5 (D12): pixel k of row r of a loaded glyph is bit k of the glyph's r-th file byte, and the
inverted table has every pixel complemented. -/
def Obligations.LoadedGlyphsReverseTheFilesBits : Prop :=
  ∀ (file : Vector Byte (glyphCount * glyphRows)) (v : Byte) (r : Fin glyphRows) (k : Fin 8) (g : Glyph),
    (∀ h : 8 * v.toNat + r.val < glyphCount * glyphRows,
      glyphPixel (glyphOf (loadGlyphs file) v) r k = (file[8 * v.toNat + r.val]'h).getLsbD k.val) ∧
    glyphPixel (invertGlyph g) r k = !glyphPixel g r k
end

