-- ==== Sys2Proof/Laws/State.lean ====
section
/-! SUPPORT. What each update of the state leaves in each field, so that no later proof unfolds a record update. -/

namespace Sys2Proof.Machine

variable (s : State) (k j : Section)

/-! ## setTerm -/

@[simp] theorem State.setTerm_secA (t : Terminal) : (s.setTerm t).secA = s.secA := rfl
@[simp] theorem State.setTerm_secB (t : Terminal) : (s.setTerm t).secB = s.secB := rfl
@[simp] theorem State.setTerm_ram (t : Terminal) : (s.setTerm t).ram = s.ram := rfl
@[simp] theorem State.setTerm_rom (t : Terminal) : (s.setTerm t).rom = s.rom := rfl
@[simp] theorem State.setTerm_cycles (t : Terminal) : (s.setTerm t).cycles = s.cycles := rfl
@[simp] theorem State.setTerm_term (t : Terminal) : (s.setTerm t).term = t := rfl
@[simp] theorem State.setTerm_trace (t : Terminal) : (s.setTerm t).trace = s.trace := rfl
@[simp] theorem State.setTerm_result (t : Terminal) : (s.setTerm t).result = s.result := rfl
@[simp] theorem State.setTerm_pending (t : Terminal) : (s.setTerm t).pending = s.pending := rfl
@[simp] theorem State.setTerm_cfg (t : Terminal) : (s.setTerm t).cfg = s.cfg := rfl
@[simp] theorem State.setTerm_sec (t : Terminal) : (s.setTerm t).sec k = s.sec k := by cases k <;> rfl
@[simp] theorem State.setTerm_cfgOf (t : Terminal) : (s.setTerm t).cfgOf k = s.cfgOf k := by cases k <;> rfl
@[simp] theorem State.setTerm_port (t : Terminal) : (s.setTerm t).port k = s.port k := by cases k <;> rfl
@[simp] theorem State.setTerm_irqLevel (t : Terminal) : (s.setTerm t).irqLevel k = s.irqLevel k := by cases k <;> rfl
@[simp] theorem State.setTerm_ramByte (t : Terminal) (addr : Addr) : (s.setTerm t).ramByte addr = s.ramByte addr := rfl
@[simp] theorem State.setTerm_romClaims (t : Terminal) (addr : Addr) : (s.setTerm t).romClaims addr = s.romClaims addr := rfl

/-! ## setRam -/

@[simp] theorem State.setRam_secA (m : Memory) : (s.setRam m).secA = s.secA := rfl
@[simp] theorem State.setRam_secB (m : Memory) : (s.setRam m).secB = s.secB := rfl
@[simp] theorem State.setRam_ram (m : Memory) : (s.setRam m).ram = m := rfl
@[simp] theorem State.setRam_rom (m : Memory) : (s.setRam m).rom = s.rom := rfl
@[simp] theorem State.setRam_cycles (m : Memory) : (s.setRam m).cycles = s.cycles := rfl
@[simp] theorem State.setRam_term (m : Memory) : (s.setRam m).term = s.term := rfl
@[simp] theorem State.setRam_trace (m : Memory) : (s.setRam m).trace = s.trace := rfl
@[simp] theorem State.setRam_result (m : Memory) : (s.setRam m).result = s.result := rfl
@[simp] theorem State.setRam_pending (m : Memory) : (s.setRam m).pending = s.pending := rfl
@[simp] theorem State.setRam_cfg (m : Memory) : (s.setRam m).cfg = s.cfg := rfl
@[simp] theorem State.setRam_sec (m : Memory) : (s.setRam m).sec k = s.sec k := by cases k <;> rfl
@[simp] theorem State.setRam_cfgOf (m : Memory) : (s.setRam m).cfgOf k = s.cfgOf k := by cases k <;> rfl
@[simp] theorem State.setRam_port (m : Memory) : (s.setRam m).port k = s.port k := by cases k <;> rfl
@[simp] theorem State.setRam_irqLevel (m : Memory) : (s.setRam m).irqLevel k = s.irqLevel k := by cases k <;> rfl
@[simp] theorem State.setRam_romClaims (m : Memory) (addr : Addr) : (s.setRam m).romClaims addr = s.romClaims addr := rfl

/-! ## setRom -/

@[simp] theorem State.setRom_secA (roms : List RomImage) : (s.setRom roms).secA = s.secA := rfl
@[simp] theorem State.setRom_secB (roms : List RomImage) : (s.setRom roms).secB = s.secB := rfl
@[simp] theorem State.setRom_ram (roms : List RomImage) : (s.setRom roms).ram = s.ram := rfl
@[simp] theorem State.setRom_rom (roms : List RomImage) : (s.setRom roms).rom = roms := rfl
@[simp] theorem State.setRom_cycles (roms : List RomImage) : (s.setRom roms).cycles = s.cycles := rfl
@[simp] theorem State.setRom_term (roms : List RomImage) : (s.setRom roms).term = s.term := rfl
@[simp] theorem State.setRom_trace (roms : List RomImage) : (s.setRom roms).trace = s.trace := rfl
@[simp] theorem State.setRom_result (roms : List RomImage) : (s.setRom roms).result = s.result := rfl
@[simp] theorem State.setRom_pending (roms : List RomImage) : (s.setRom roms).pending = s.pending := rfl
@[simp] theorem State.setRom_cfg (roms : List RomImage) : (s.setRom roms).cfg = s.cfg := rfl
@[simp] theorem State.setRom_sec (roms : List RomImage) : (s.setRom roms).sec k = s.sec k := by cases k <;> rfl
@[simp] theorem State.setRom_cfgOf (roms : List RomImage) : (s.setRom roms).cfgOf k = s.cfgOf k := by cases k <;> rfl
@[simp] theorem State.setRom_port (roms : List RomImage) : (s.setRom roms).port k = s.port k := by cases k <;> rfl
@[simp] theorem State.setRom_irqLevel (roms : List RomImage) : (s.setRom roms).irqLevel k = s.irqLevel k := by cases k <;> rfl
@[simp] theorem State.setRom_ramByte (roms : List RomImage) (addr : Addr) : (s.setRom roms).ramByte addr = s.ramByte addr := rfl

/-! ## setCycles -/

@[simp] theorem State.setCycles_secA (n : Nat) : (s.setCycles n).secA = s.secA := rfl
@[simp] theorem State.setCycles_secB (n : Nat) : (s.setCycles n).secB = s.secB := rfl
@[simp] theorem State.setCycles_ram (n : Nat) : (s.setCycles n).ram = s.ram := rfl
@[simp] theorem State.setCycles_rom (n : Nat) : (s.setCycles n).rom = s.rom := rfl
@[simp] theorem State.setCycles_cycles (n : Nat) : (s.setCycles n).cycles = n := rfl
@[simp] theorem State.setCycles_term (n : Nat) : (s.setCycles n).term = s.term := rfl
@[simp] theorem State.setCycles_trace (n : Nat) : (s.setCycles n).trace = s.trace := rfl
@[simp] theorem State.setCycles_result (n : Nat) : (s.setCycles n).result = s.result := rfl
@[simp] theorem State.setCycles_pending (n : Nat) : (s.setCycles n).pending = s.pending := rfl
@[simp] theorem State.setCycles_cfg (n : Nat) : (s.setCycles n).cfg = s.cfg := rfl
@[simp] theorem State.setCycles_sec (n : Nat) : (s.setCycles n).sec k = s.sec k := by cases k <;> rfl
@[simp] theorem State.setCycles_cfgOf (n : Nat) : (s.setCycles n).cfgOf k = s.cfgOf k := by cases k <;> rfl
@[simp] theorem State.setCycles_port (n : Nat) : (s.setCycles n).port k = s.port k := by cases k <;> rfl
@[simp] theorem State.setCycles_irqLevel (n : Nat) : (s.setCycles n).irqLevel k = s.irqLevel k := by cases k <;> rfl
@[simp] theorem State.setCycles_ramByte (n : Nat) (addr : Addr) : (s.setCycles n).ramByte addr = s.ramByte addr := rfl
@[simp] theorem State.setCycles_romClaims (n : Nat) (addr : Addr) : (s.setCycles n).romClaims addr = s.romClaims addr := rfl

/-! ## setPending -/

@[simp] theorem State.setPending_secA (bytes : List Byte) : (s.setPending bytes).secA = s.secA := rfl
@[simp] theorem State.setPending_secB (bytes : List Byte) : (s.setPending bytes).secB = s.secB := rfl
@[simp] theorem State.setPending_ram (bytes : List Byte) : (s.setPending bytes).ram = s.ram := rfl
@[simp] theorem State.setPending_rom (bytes : List Byte) : (s.setPending bytes).rom = s.rom := rfl
@[simp] theorem State.setPending_cycles (bytes : List Byte) : (s.setPending bytes).cycles = s.cycles := rfl
@[simp] theorem State.setPending_term (bytes : List Byte) : (s.setPending bytes).term = s.term := rfl
@[simp] theorem State.setPending_trace (bytes : List Byte) : (s.setPending bytes).trace = s.trace := rfl
@[simp] theorem State.setPending_result (bytes : List Byte) : (s.setPending bytes).result = s.result := rfl
@[simp] theorem State.setPending_pending (bytes : List Byte) : (s.setPending bytes).pending = bytes := rfl
@[simp] theorem State.setPending_cfg (bytes : List Byte) : (s.setPending bytes).cfg = s.cfg := rfl
@[simp] theorem State.setPending_sec (bytes : List Byte) : (s.setPending bytes).sec k = s.sec k := by cases k <;> rfl
@[simp] theorem State.setPending_cfgOf (bytes : List Byte) : (s.setPending bytes).cfgOf k = s.cfgOf k := by cases k <;> rfl
@[simp] theorem State.setPending_port (bytes : List Byte) : (s.setPending bytes).port k = s.port k := by cases k <;> rfl
@[simp] theorem State.setPending_irqLevel (bytes : List Byte) : (s.setPending bytes).irqLevel k = s.irqLevel k := by cases k <;> rfl
@[simp] theorem State.setPending_ramByte (bytes : List Byte) (addr : Addr) : (s.setPending bytes).ramByte addr = s.ramByte addr := rfl
@[simp] theorem State.setPending_romClaims (bytes : List Byte) (addr : Addr) : (s.setPending bytes).romClaims addr = s.romClaims addr := rfl

/-! ## emit -/

@[simp] theorem State.emit_secA (e : Event) : (s.emit e).secA = s.secA := rfl
@[simp] theorem State.emit_secB (e : Event) : (s.emit e).secB = s.secB := rfl
@[simp] theorem State.emit_ram (e : Event) : (s.emit e).ram = s.ram := rfl
@[simp] theorem State.emit_rom (e : Event) : (s.emit e).rom = s.rom := rfl
@[simp] theorem State.emit_cycles (e : Event) : (s.emit e).cycles = s.cycles := rfl
@[simp] theorem State.emit_term (e : Event) : (s.emit e).term = s.term := rfl
@[simp] theorem State.emit_trace (e : Event) : (s.emit e).trace = s.trace ++ [e] := rfl
@[simp] theorem State.emit_result (e : Event) : (s.emit e).result = s.result := rfl
@[simp] theorem State.emit_pending (e : Event) : (s.emit e).pending = s.pending := rfl
@[simp] theorem State.emit_cfg (e : Event) : (s.emit e).cfg = s.cfg := rfl
@[simp] theorem State.emit_sec (e : Event) : (s.emit e).sec k = s.sec k := by cases k <;> rfl
@[simp] theorem State.emit_cfgOf (e : Event) : (s.emit e).cfgOf k = s.cfgOf k := by cases k <;> rfl
@[simp] theorem State.emit_port (e : Event) : (s.emit e).port k = s.port k := by cases k <;> rfl
@[simp] theorem State.emit_irqLevel (e : Event) : (s.emit e).irqLevel k = s.irqLevel k := by cases k <;> rfl
@[simp] theorem State.emit_ramByte (e : Event) (addr : Addr) : (s.emit e).ramByte addr = s.ramByte addr := rfl
@[simp] theorem State.emit_romClaims (e : Event) (addr : Addr) : (s.emit e).romClaims addr = s.romClaims addr := rfl

/-! ## give -/

@[simp] theorem State.give_secA (r : Result) : (s.give r).secA = s.secA := rfl
@[simp] theorem State.give_secB (r : Result) : (s.give r).secB = s.secB := rfl
@[simp] theorem State.give_ram (r : Result) : (s.give r).ram = s.ram := rfl
@[simp] theorem State.give_rom (r : Result) : (s.give r).rom = s.rom := rfl
@[simp] theorem State.give_cycles (r : Result) : (s.give r).cycles = s.cycles := rfl
@[simp] theorem State.give_term (r : Result) : (s.give r).term = s.term := rfl
@[simp] theorem State.give_trace (r : Result) : (s.give r).trace = s.trace := rfl
@[simp] theorem State.give_result (r : Result) : (s.give r).result = r := rfl
@[simp] theorem State.give_pending (r : Result) : (s.give r).pending = s.pending := rfl
@[simp] theorem State.give_cfg (r : Result) : (s.give r).cfg = s.cfg := rfl
@[simp] theorem State.give_sec (r : Result) : (s.give r).sec k = s.sec k := by cases k <;> rfl
@[simp] theorem State.give_cfgOf (r : Result) : (s.give r).cfgOf k = s.cfgOf k := by cases k <;> rfl
@[simp] theorem State.give_port (r : Result) : (s.give r).port k = s.port k := by cases k <;> rfl
@[simp] theorem State.give_irqLevel (r : Result) : (s.give r).irqLevel k = s.irqLevel k := by cases k <;> rfl
@[simp] theorem State.give_ramByte (r : Result) (addr : Addr) : (s.give r).ramByte addr = s.ramByte addr := rfl
@[simp] theorem State.give_romClaims (r : Result) (addr : Addr) : (s.give r).romClaims addr = s.romClaims addr := rfl

/-! ## setSec -/

@[simp] theorem State.setSec_ram (p : PiaSection) : (s.setSec k p).ram = s.ram := by cases k <;> rfl
@[simp] theorem State.setSec_rom (p : PiaSection) : (s.setSec k p).rom = s.rom := by cases k <;> rfl
@[simp] theorem State.setSec_cycles (p : PiaSection) : (s.setSec k p).cycles = s.cycles := by cases k <;> rfl
@[simp] theorem State.setSec_term (p : PiaSection) : (s.setSec k p).term = s.term := by cases k <;> rfl
@[simp] theorem State.setSec_trace (p : PiaSection) : (s.setSec k p).trace = s.trace := by cases k <;> rfl
@[simp] theorem State.setSec_result (p : PiaSection) : (s.setSec k p).result = s.result := by cases k <;> rfl
@[simp] theorem State.setSec_pending (p : PiaSection) : (s.setSec k p).pending = s.pending := by cases k <;> rfl
@[simp] theorem State.setSec_cfg (p : PiaSection) : (s.setSec k p).cfg = s.cfg := by cases k <;> rfl
@[simp] theorem State.setSec_sec_same (p : PiaSection) : (s.setSec k p).sec k = p := by cases k <;> rfl
theorem State.setSec_sec (p : PiaSection) : (s.setSec k p).sec j = if j = k then p else s.sec j := by
  cases k <;> cases j <;> rfl
@[simp] theorem State.setSec_sec_other (p : PiaSection) (h : j ≠ k) : (s.setSec k p).sec j = s.sec j := by
  simp [State.setSec_sec, h]
@[simp] theorem State.setSec_a_secA (p : PiaSection) : (s.setSec .a p).secA = p := rfl
@[simp] theorem State.setSec_a_secB (p : PiaSection) : (s.setSec .a p).secB = s.secB := rfl
@[simp] theorem State.setSec_b_secA (p : PiaSection) : (s.setSec .b p).secA = s.secA := rfl
@[simp] theorem State.setSec_b_secB (p : PiaSection) : (s.setSec .b p).secB = p := rfl
@[simp] theorem State.setSec_ramByte (p : PiaSection) (addr : Addr) : (s.setSec k p).ramByte addr = s.ramByte addr := by
  cases k <;> rfl
@[simp] theorem State.setSec_romClaims (p : PiaSection) (addr : Addr) :
    (s.setSec k p).romClaims addr = s.romClaims addr := by cases k <;> rfl
@[simp] theorem State.setSec_sec_self : s.setSec k (s.sec k) = s := by cases k <;> rfl
@[simp] theorem State.setSec_setSec (p q : PiaSection) : (s.setSec k p).setSec k q = s.setSec k q := by cases k <;> rfl
@[simp] theorem State.sec_a : s.sec .a = s.secA := rfl
@[simp] theorem State.sec_b : s.sec .b = s.secB := rfl

/-- Two sections that agree on the control register are configured alike. -/
theorem State.cfgOf_setSec_same (p : PiaSection) : (s.setSec k p).cfgOf k = decodeCfg s.cfg.cfgLayout p.cr := by
  cases k <;> rfl
theorem State.cfgOf_setSec_other (p : PiaSection) (h : j ≠ k) : (s.setSec k p).cfgOf j = s.cfgOf j := by
  cases k <;> cases j <;> first | rfl | exact absurd rfl h
theorem State.port_setSec_same (p : PiaSection) : (s.setSec k p).port k = portOf p.outReg p.inReg p.ddr := by
  cases k <;> rfl
theorem State.irqLevel_setSec_same (p : PiaSection) :
    (s.setSec k p).irqLevel k = irqLevelOf (decodeCfg s.cfg.cfgLayout p.cr) p.cr := by cases k <;> rfl

/-! ## A state and its parts -/

@[simp] theorem State.setTerm_term_self : s.setTerm s.term = s := rfl
@[simp] theorem State.setRom_rom_self : s.setRom s.rom = s := rfl
@[simp] theorem State.give_give (r q : Result) : (s.give r).give q = s.give q := rfl

/-- Two states are equal when their fields are. -/
theorem State.eq_of_fields {s t : State} (hA : s.secA = t.secA) (hB : s.secB = t.secB) (hram : s.ram = t.ram)
    (hrom : s.rom = t.rom) (hcyc : s.cycles = t.cycles) (hterm : s.term = t.term) (htr : s.trace = t.trace)
    (hres : s.result = t.result) (hpend : s.pending = t.pending) (hcfg : s.cfg = t.cfg) : s = t := by
  cases s; cases t; simp_all

end Sys2Proof.Machine
end

