-- ==== Sys2Proof/Laws/Ops.lean ====
section
/-! SUPPORT. What each shared operation can do, said once: its result as one update of the state. -/

namespace Sys2Proof.Machine

variable (s : State) (k j : Section)

/-! ## Driving line 2 and signalling -/

/-- Driving line 2 assigns the line and records it; nothing else. -/
theorem setC2Out_spec (sig : Signal) :
    setC2Out k sig s = { s.setSec k { s.sec k with c2 := sig } with trace := s.trace ++ [.lineOut k sig] } := by
  cases k <;> rfl

@[simp] theorem setC2Out_cfgOf (sig : Signal) : (setC2Out k sig s).cfgOf j = s.cfgOf j := by cases k <;> cases j <;> rfl
@[simp] theorem setC2Out_irqLevel (sig : Signal) : (setC2Out k sig s).irqLevel j = s.irqLevel j := by
  cases k <;> cases j <;> rfl
@[simp] theorem setC2Out_cfg (sig : Signal) : (setC2Out k sig s).cfg = s.cfg := by cases k <;> rfl

/-- A signalled request appends its events; no state of the block changes (60_exceptions.md R166). -/
theorem signalIrq_spec : signalIrq k s = { s with trace := s.trace ++ requestEvents s.cfg.irqRouting k } := by
  unfold signalIrq requestEvents
  cases routeOf s.cfg.irqRouting k <;> simp [State.emit]

/-- An evaluation appends the request's events where the level holds, and does nothing else. -/
theorem evalIrq_spec : evalIrq k s = { s with trace := s.trace ++ evalEvents s k } := by
  unfold evalIrq evalEvents
  split
  · exact signalIrq_spec s k
  · simp

@[simp] theorem evalIrq_sec : (evalIrq k s).sec j = s.sec j := by rw [evalIrq_spec]; cases j <;> rfl
@[simp] theorem evalIrq_cfgOf : (evalIrq k s).cfgOf j = s.cfgOf j := by rw [evalIrq_spec]; cases j <;> rfl
@[simp] theorem evalIrq_irqLevel : (evalIrq k s).irqLevel j = s.irqLevel j := by rw [evalIrq_spec]; cases j <;> rfl
@[simp] theorem evalIrq_cfg : (evalIrq k s).cfg = s.cfg := by rw [evalIrq_spec]

/-! ## The terminal queue and the output callback -/

/-- With room, an enqueue appends the byte and does nothing else to the terminal. -/
theorem Terminal.enqueue_of_room {cap : Option Nat} {t : Terminal} (h : ∀ n, cap = some n → t.queue.length < n)
    (v : Byte) : t.enqueue cap v = { t with queue := t.queue ++ [v] } := by
  cases cap with
  | none => rfl
  | some n => simp [Terminal.enqueue, h n rfl]

/-- An enqueue touches the queue only. -/
theorem Terminal.enqueue_spec (cap : Option Nat) (v : Byte) (t : Terminal) :
    t.enqueue cap v = { t with queue := (t.enqueue cap v).queue } := by
  cases cap with
  | none => rfl
  | some n => simp only [Terminal.enqueue]; split <;> rfl

@[simp] theorem Terminal.enqueue_grid (cap : Option Nat) (v : Byte) (t : Terminal) : (t.enqueue cap v).grid = t.grid := by
  rw [Terminal.enqueue_spec]
@[simp] theorem Terminal.enqueue_cur (cap : Option Nat) (v : Byte) (t : Terminal) : (t.enqueue cap v).cur = t.cur := by
  rw [Terminal.enqueue_spec]
@[simp] theorem Terminal.enqueue_pix (cap : Option Nat) (v : Byte) (t : Terminal) : (t.enqueue cap v).pix = t.pix := by
  rw [Terminal.enqueue_spec]

/-- An enqueue keeps the queue within its capacity. -/
theorem Terminal.enqueue_within {cap : Option Nat} {t : Terminal} (v : Byte) (h : t.queueWithin cap) :
    (t.enqueue cap v).queueWithin cap := by
  intro n hn
  subst hn
  simp only [Terminal.enqueue]
  split
  · simp; omega
  · simp only [List.length_take]; omega

/-- The output callback records the byte; the terminal takes it for section B only. -/
theorem outCallback_spec (v : Byte) :
    outCallback k v s =
      { s with
        trace := s.trace ++ [.out k v]
        term := match k with
          | .a => s.term
          | .b => s.term.enqueue s.cfg.queueCap v } := by
  cases k <;> rfl

/-- What the strobed line 2 of section B ends at after a data write (40_pia.md R96). -/
def strobedLine (m : C2Mode) (old : Signal) : Signal :=
  match m with
  | .handshake => .fall
  | .pulse     => .rise
  | .manual _  => old
  | .input _ _ => old

/-- What the automatic movement of CB2 records (40_pia.md R96). -/
def strobeEvents (m : C2Mode) : List Event :=
  match m with
  | .handshake => [.lineOut .b .fall]
  | .pulse     => [.lineOut .b .fall, .lineOut .b .rise]
  | .manual _  => []
  | .input _ _ => []

/-- What the automatic movement of CB2 leaves (40_pia.md R96). -/
theorem handshakeOnWrite_spec :
    handshakeOnWrite s =
      { s with
        secB := { s.secB with c2 := strobedLine (s.cfgOf .b).c2Mode s.secB.c2 }
        trace := s.trace ++ strobeEvents (s.cfgOf .b).c2Mode } := by
  unfold handshakeOnWrite
  cases (s.cfgOf .b).c2Mode <;> simp [setC2Out, State.setSec, State.emit, strobedLine, strobeEvents]

/-! ## The flag bits -/

theorem setFlag1_config (cr : Byte) : (setFlag1 cr).setWidth 6 = cr.setWidth 6 := by
  revert cr; decide
theorem setFlag2_config (cr : Byte) : (setFlag2 cr).setWidth 6 = cr.setWidth 6 := by
  revert cr; decide
theorem clearFlags_config (cr : Byte) : (clearFlags cr).setWidth 6 = cr.setWidth 6 := by
  revert cr; decide

/-- The configuration does not depend on the flag bits. -/
theorem decodeCfg_congr (layout : Vector Cfg 64) {c d : Byte} (h : c.setWidth 6 = d.setWidth 6) :
    decodeCfg layout c = decodeCfg layout d := by
  unfold decodeCfg; simp only [h]

@[simp] theorem decodeCfg_setFlag1 (layout : Vector Cfg 64) (cr : Byte) :
    decodeCfg layout (setFlag1 cr) = decodeCfg layout cr := decodeCfg_congr layout (setFlag1_config cr)
@[simp] theorem decodeCfg_setFlag2 (layout : Vector Cfg 64) (cr : Byte) :
    decodeCfg layout (setFlag2 cr) = decodeCfg layout cr := decodeCfg_congr layout (setFlag2_config cr)
@[simp] theorem decodeCfg_clearFlags (layout : Vector Cfg 64) (cr : Byte) :
    decodeCfg layout (clearFlags cr) = decodeCfg layout cr := decodeCfg_congr layout (clearFlags_config cr)

@[simp] theorem flag1_clearFlags (cr : Byte) : flag1 (clearFlags cr) = false := by revert cr; decide
@[simp] theorem flag2_clearFlags (cr : Byte) : flag2 (clearFlags cr) = false := by revert cr; decide
@[simp] theorem flag1_setFlag1 (cr : Byte) : flag1 (setFlag1 cr) = true := by revert cr; decide
@[simp] theorem flag2_setFlag1 (cr : Byte) : flag2 (setFlag1 cr) = flag2 cr := by revert cr; decide
@[simp] theorem flag1_setFlag2 (cr : Byte) : flag1 (setFlag2 cr) = flag1 cr := by revert cr; decide
@[simp] theorem flag2_setFlag2 (cr : Byte) : flag2 (setFlag2 cr) = true := by revert cr; decide

/-- The flag bits by number (10_state.md R26). -/
theorem flag1_eq (cr : Byte) : flag1 cr = cr.getLsbD 7 := by revert cr; decide
theorem flag2_eq (cr : Byte) : flag2 cr = cr.getLsbD 6 := by revert cr; decide

/-- A control-register write keeps the flags (30_encoding.md R75). -/
@[simp] theorem flag1_writeConfig (cr data : Byte) : flag1 (writeConfig cr data) = flag1 cr := by
  rw [flag1_eq, flag1_eq]; simp [writeConfig, flagMask, configMask]
@[simp] theorem flag2_writeConfig (cr data : Byte) : flag2 (writeConfig cr data) = flag2 cr := by
  rw [flag2_eq, flag2_eq]; simp [writeConfig, flagMask, configMask]

/-- With both flags clear nothing is requested (40_pia.md R92). -/
theorem irqLevelOf_clearFlags (cfg : Cfg) (cr : Byte) : irqLevelOf cfg (clearFlags cr) = false := by
  simp [irqLevelOf]

/-! ## Fetch and step -/

/-- With an operation's record pending, a step runs it on the state whose record is taken away. -/
theorem step_of_decode {i : Instr} {rest : List Byte} (h : decode s.pending = .ok i rest) :
    step s = exec i (s.setPending rest) := by
  unfold step fetch
  cases hp : s.pending with
  | nil => rw [hp] at h; cases h
  | cons b bs => rw [hp] at h; simp only [h]

/-- With nothing pending, a step does nothing. -/
theorem step_idle (h : s.pending = []) : step s = .next s := by simp [step, fetch, h]

/-- A step that answers a next state was idle or ran an operation. -/
theorem step_cases {t : State} (h : step s = .next t) :
    (s.pending = [] ∧ t = s) ∨
      ∃ i rest, decode s.pending = .ok i rest ∧ exec i (s.setPending rest) = .next t := by
  unfold step fetch at h
  cases hp : s.pending with
  | nil => rw [hp] at h; simp only [Host.Outcome.next.injEq] at h; exact .inl ⟨rfl, h.symm⟩
  | cons b bs =>
    rw [hp] at h
    cases hd : decode (b :: bs) with
    | ok i rest => simp only [hd] at h; exact .inr ⟨i, rest, rfl, h⟩
    | reject e => simp only [hd] at h; cases h

end Sys2Proof.Machine
end

