-- ==== Sys2Proof/Laws/Pia.lean ====
section
/-! SUPPORT. What each PIA operation leaves, as one update of the state. -/

namespace Sys2Proof.Machine

variable (s : State) (k : Section)

/-! ## Selectors -/

@[simp] theorem sectionOf_dataSel : sectionOf (dataSel k) = k := by cases k <;> rfl
@[simp] theorem sectionOf_controlSel : sectionOf (controlSel k) = k := by cases k <;> rfl
@[simp] theorem isData_dataSel : isData (dataSel k) = true := by cases k <;> rfl
@[simp] theorem isData_controlSel : isData (controlSel k) = false := by cases k <;> rfl

/-- A selector is its section's data or control selector. -/
theorem sel_cases (sel : BitVec 2) :
    (isData sel = true ∧ sel = dataSel (sectionOf sel)) ∨ (isData sel = false ∧ sel = controlSel (sectionOf sel)) := by
  revert sel; decide

/-- An address with a row of the window is in the window, and has its selector. -/
theorem windowRow_iff (addr : Addr) (sel : BitVec 2) :
    windowRow addr sel = true ↔ inWindow addr = true ∧ selector addr = sel := by
  simp [windowRow]

/-! ## Reads -/

/-- A data-port read clears both flags and gives the port value (40_pia.md R92). -/
theorem piaReadData_spec :
    piaReadData k s = (s.setSec k { s.sec k with cr := clearFlags (s.sec k).cr }).give (.byte (s.port k)) := by
  cases k <;> rfl

@[simp] theorem piaRead_dataSel : piaRead (dataSel k) s = piaReadData k s := by simp [piaRead]
@[simp] theorem piaRead_controlSel : piaRead (controlSel k) s = s.give (.byte (s.sec k).cr) := by
  simp [piaRead, piaReadControl]

/-! ## Writes -/

/-- A data write of port A in write-port mode (40_pia.md R94, R104). -/
theorem piaWriteOut_a (data : Byte) :
    piaWriteOut .a data s =
      { s with
        secA := { s.secA with outReg := data }
        trace := s.trace ++ [.out .a (portOf data s.secA.inReg s.secA.ddr)] } := rfl

/-- A data write of port B in write-port mode (40_pia.md R94, R96, R102). -/
theorem piaWriteOut_b (data : Byte) :
    piaWriteOut .b data s =
      { s with
        secB := { s.secB with outReg := data, c2 := strobedLine (s.cfgOf .b).c2Mode s.secB.c2 }
        term := s.term.enqueue s.cfg.queueCap (portOf data s.secB.inReg s.secB.ddr)
        trace := s.trace ++ [.out .b (portOf data s.secB.inReg s.secB.ddr)] ++ strobeEvents (s.cfgOf .b).c2Mode } := by
  unfold piaWriteOut; dsimp only; rw [handshakeOnWrite_spec]; rfl

/-- Where line 2 is after a control-register write (40_pia.md R97, R105). -/
def manualLine (m : C2Mode) (old : Signal) : Signal :=
  match m with
  | .manual level => level
  | .handshake    => old
  | .pulse        => old
  | .input _ _    => old

/-- What a control-register write records of line 2 (40_pia.md R97). -/
def manualEvents (k : Section) (m : C2Mode) : List Event :=
  match m with
  | .manual level => [.lineOut k level]
  | .handshake    => []
  | .pulse        => []
  | .input _ _    => []

/-- A control-register write (40_pia.md R97). -/
theorem piaWriteControl_spec (data : Byte) :
    piaWriteControl k data s =
      { s.setSec k { s.sec k with
          cr := writeConfig (s.sec k).cr data
          c2 := manualLine (decodeCfg s.cfg.cfgLayout (writeConfig (s.sec k).cr data)).c2Mode (s.sec k).c2 } with
        trace := s.trace ++
          manualEvents k (decodeCfg s.cfg.cfgLayout (writeConfig (s.sec k).cr data)).c2Mode ++
          (if irqLevelOf (decodeCfg s.cfg.cfgLayout (writeConfig (s.sec k).cr data)) (writeConfig (s.sec k).cr data)
            then requestEvents s.cfg.irqRouting k else []) } := by
  simp only [piaWriteControl, State.cfgOf_setSec_same]
  cases hm : (decodeCfg s.cfg.cfgLayout (writeConfig (s.sec k).cr data)).c2Mode <;>
    simp only [evalIrq_spec, evalEvents, manualLine, manualEvents, State.irqLevel_setSec_same,
      setC2Out_spec, State.setSec_trace, State.setSec_cfg, State.setSec_sec_same, State.setSec_setSec,
      List.append_nil] <;>
    cases k <;> rfl

/-! ## Control lines -/

/-- An active transition of line 1 (40_pia.md R99). -/
theorem activeC1_spec :
    activeC1 k s =
      { s.setSec k { s.sec k with
          cr := setFlag1 (s.sec k).cr
          c2 := if (s.cfgOf k).c2Mode = .handshake then .rise else (s.sec k).c2 } with
        trace := s.trace ++
          (if irqLevelOf (s.cfgOf k) (setFlag1 (s.sec k).cr) then requestEvents s.cfg.irqRouting k else []) ++
          (if (s.cfgOf k).c2Mode = .handshake then [.lineOut k .rise] else []) } := by
  have hcfg : (s.setSec k { s.sec k with cr := setFlag1 (s.sec k).cr }).cfgOf k = s.cfgOf k := by
    rw [State.cfgOf_setSec_same]; simp [State.cfgOf]
  have hlvl : (s.setSec k { s.sec k with cr := setFlag1 (s.sec k).cr }).irqLevel k =
      irqLevelOf (s.cfgOf k) (setFlag1 (s.sec k).cr) := by
    rw [State.irqLevel_setSec_same]; simp [State.cfgOf]
  simp only [activeC1, evalIrq_cfgOf, hcfg]
  cases hm : (s.cfgOf k).c2Mode <;>
    simp only [evalIrq_spec, evalEvents, hlvl, setC2Out_spec, State.setSec_trace, State.setSec_cfg, reduceCtorEq,
      if_false, if_true, List.append_nil] <;>
    cases k <;> rfl

/-- An active transition of line 2 (40_pia.md R100). -/
theorem activeC2_spec :
    activeC2 k s =
      { s.setSec k { s.sec k with cr := setFlag2 (s.sec k).cr } with
        trace := s.trace ++
          (if irqLevelOf (s.cfgOf k) (setFlag2 (s.sec k).cr) then requestEvents s.cfg.irqRouting k else []) } := by
  have hlvl : (s.setSec k { s.sec k with cr := setFlag2 (s.sec k).cr }).irqLevel k =
      irqLevelOf (s.cfgOf k) (setFlag2 (s.sec k).cr) := by
    rw [State.irqLevel_setSec_same]; simp [State.cfgOf]
  simp only [activeC2, evalIrq_spec, evalEvents, hlvl, State.setSec_trace, State.setSec_cfg]

/-- Every operation on line 1 keeps the parameters. -/
@[simp] theorem setC1_cfg (sig : Signal) : (setC1 k sig s).cfg = s.cfg := by
  unfold setC1
  split
  · rw [activeC1_spec]; simp
  · simp

/-- No operation on line 1 changes the configuration of a section. -/
theorem setC1_cfgOf (sig : Signal) (j : Section) : (setC1 k sig s).cfgOf j = s.cfgOf j := by
  unfold setC1
  split
  · rw [activeC1_spec]; cases k <;> cases j <;> simp [State.cfgOf, State.setSec, State.sec]
  · cases k <;> cases j <;> rfl

end Sys2Proof.Machine
end

