-- ==== Sys2Proof/Laws/Rom.lean ====
section
/-! SUPPORT. The laws of the ROM images: claims and probes agree, the first claiming image answers, a write keeps every
base and length. -/

namespace Sys2Proof.Machine

/-- An image never claims past its bytes (41_bus.md R110). -/
theorem effLen_le (trunc : Bool) (img : RomImage) : effLen trunc img ≤ img.bytes.length := by
  unfold effLen; split
  · exact Nat.min_le_left _ _
  · exact Nat.le_refl _

/-- A claimed address lies inside the image's bytes. -/
theorem claims_inside {trunc : Bool} {img : RomImage} {addr : Addr} (h : claims trunc img addr = true) :
    addr.toNat - img.base.toNat < img.bytes.length := by
  have hl := effLen_le trunc img
  simp only [claims, Bool.and_eq_true, decide_eq_true_eq] at h
  omega

/-- What an image claims depends on its base and length only. -/
theorem claims_congr (trunc : Bool) {img img' : RomImage} (hb : img'.base = img.base)
    (hl : img'.bytes.length = img.bytes.length) (addr : Addr) : claims trunc img' addr = claims trunc img addr := by
  unfold claims effLen; rw [hb, hl]

/-- A probe of a claimed address gives the byte there (41_bus.md R111). -/
theorem probeRead_of_claims {trunc : Bool} {img : RomImage} {addr : Addr} (h : claims trunc img addr = true) :
    probeRead trunc img addr = some (img.bytes[addr.toNat - img.base.toNat]'(claims_inside h)) := by
  simp only [probeRead, h, if_true]
  exact List.getElem?_eq_getElem (claims_inside h)

/-- A probe of any other address is "not mine" (41_bus.md R111). -/
theorem probeRead_of_not_claims {trunc : Bool} {img : RomImage} {addr : Addr} (h : claims trunc img addr = false) :
    probeRead trunc img addr = none := by
  simp [probeRead, h]

/-- A store in an image keeps its base and its length (10_state.md R31). -/
@[simp] theorem storeInImage_base (w : Bool) (img : RomImage) (addr : Addr) (data : Byte) :
    (storeInImage w img addr data).base = img.base := by
  unfold storeInImage; split <;> rfl
@[simp] theorem storeInImage_length (w : Bool) (img : RomImage) (addr : Addr) (data : Byte) :
    (storeInImage w img addr data).bytes.length = img.bytes.length := by
  unfold storeInImage; split <;> simp
@[simp] theorem storeInImage_readOnly (img : RomImage) (addr : Addr) (data : Byte) :
    storeInImage false img addr data = img := rfl

/-- The read of the images: nobody answers exactly where nobody claims. -/
theorem romRead_eq_none_iff (trunc : Bool) (roms : List RomImage) (addr : Addr) :
    romRead trunc roms addr = none ↔ romClaims trunc roms addr = false := by
  simp only [romRead, List.findSome?_eq_none_iff, romClaims, List.any_eq_false]
  refine forall₂_congr fun img _ => ?_
  cases h : claims trunc img addr
  · simp [probeRead_of_not_claims h]
  · simp [probeRead_of_claims h]

/-- The read of the images, image by image. -/
theorem romRead_cons (trunc : Bool) (img : RomImage) (roms : List RomImage) (addr : Addr) :
    romRead trunc (img :: roms) addr = if claims trunc img addr then probeRead trunc img addr else romRead trunc roms addr := by
  cases h : claims trunc img addr
  · simp [romRead, probeRead_of_not_claims h]
  · simp [romRead, probeRead_of_claims h]

/-- The write of the images, image by image. -/
theorem romWrite_cons (trunc w : Bool) (img : RomImage) (roms : List RomImage) (addr : Addr) (data : Byte) :
    romWrite trunc w (img :: roms) addr data =
      if claims trunc img addr then some (storeInImage w img addr data :: roms)
      else (romWrite trunc w roms addr data).map (img :: ·) := by
  cases h : claims trunc img addr <;> simp [romWrite, probeWrite, h]

/-- The first image that claims the address answers a read (41_bus.md R113). -/
theorem romRead_first {trunc : Bool} {before after : List RomImage} {img : RomImage} {addr : Addr}
    (hb : ∀ j ∈ before, claims trunc j addr = false) (hc : claims trunc img addr = true) :
    romRead trunc (before ++ img :: after) addr = probeRead trunc img addr := by
  induction before with
  | nil => simp [romRead_cons, hc]
  | cons j before ih => simp [romRead_cons, hb j (by simp), ih fun j' h => hb j' (by simp [h])]

/-- The first image that claims the address takes a write (41_bus.md R114). -/
theorem romWrite_first {trunc w : Bool} {before after : List RomImage} {img : RomImage} {addr : Addr} {data : Byte}
    (hb : ∀ j ∈ before, claims trunc j addr = false) (hc : claims trunc img addr = true) :
    romWrite trunc w (before ++ img :: after) addr data = some (before ++ storeInImage w img addr data :: after) := by
  induction before with
  | nil => simp [romWrite_cons, hc]
  | cons j before ih => simp [romWrite_cons, hb j (by simp), ih fun j' h => hb j' (by simp [h])]

/-- The write of the images: all reject exactly where nobody claims. -/
theorem romWrite_eq_none_iff (trunc w : Bool) (roms : List RomImage) (addr : Addr) (data : Byte) :
    romWrite trunc w roms addr data = none ↔ romClaims trunc roms addr = false := by
  induction roms with
  | nil => simp [romWrite, romClaims]
  | cons img roms ih =>
    rw [romWrite_cons]
    cases h : claims trunc img addr
    · simpa [romClaims, h] using ih
    · simp [romClaims, h]

/-- A write of the images keeps every base and length (10_state.md R31). -/
theorem romWrite_shape {trunc w : Bool} {roms roms' : List RomImage} {addr : Addr} {data : Byte}
    (h : romWrite trunc w roms addr data = some roms') : romShape roms' = romShape roms := by
  induction roms generalizing roms' with
  | nil => simp [romWrite] at h
  | cons img roms ih =>
    rw [romWrite_cons] at h
    split at h
    · cases h; simp [romShape]
    · obtain ⟨r, hr, rfl⟩ := Option.map_eq_some_iff.1 h
      simpa [romShape] using ih hr

/-- A write of images that are not writable changes none (41_bus.md R112). -/
theorem romWrite_readOnly {trunc : Bool} {roms roms' : List RomImage} {addr : Addr} {data : Byte}
    (h : romWrite trunc false roms addr data = some roms') : roms' = roms := by
  induction roms generalizing roms' with
  | nil => simp [romWrite] at h
  | cons img roms ih =>
    rw [romWrite_cons] at h
    split at h
    · cases h; simp
    · obtain ⟨r, hr, rfl⟩ := Option.map_eq_some_iff.1 h
      rw [ih hr]

/-- Images of one shape claim the same addresses. -/
theorem romClaims_of_shape (trunc : Bool) {roms roms' : List RomImage} (h : romShape roms' = romShape roms) (addr : Addr) :
    romClaims trunc roms' addr = romClaims trunc roms addr := by
  induction roms generalizing roms' with
  | nil => simp [romShape] at h; simp [h]
  | cons img roms ih =>
    cases roms' with
    | nil => simp [romShape] at h
    | cons img' roms' =>
      simp only [romShape, List.map_cons, List.cons.injEq, Prod.mk.injEq] at h
      simp only [romClaims, List.any_cons]
      rw [claims_congr trunc h.1.1 h.1.2]
      exact congrArg _ (ih h.2)

end Sys2Proof.Machine
end

