-- ==== Sys2Proof/Laws/Bus.lean ====
section
/-! SUPPORT. A bus access, case by case of the store that answers it; and every row of an access is that access. -/

namespace Sys2Proof.Machine

variable (s : State) (addr : Addr)

/-- Every row of a bus read is the bus read. -/
theorem exec_busReadRows {i : Instr} {readOnly : Bool} (h : i ∈ busReadRows addr readOnly) :
    exec i s = .next (busRead addr s) := by
  simp only [busReadRows, List.mem_cons, List.not_mem_nil, or_false] at h
  obtain rfl | rfl | rfl | rfl | rfl | rfl := h <;> rfl

/-- Every row of a bus write is the bus write. -/
theorem exec_busWriteRows {i : Instr} {data : Byte} (h : i ∈ busWriteRows addr data) :
    exec i s = .next (busWrite addr data s) := by
  simp only [busWriteRows, List.mem_cons, List.not_mem_nil, or_false] at h
  obtain rfl | rfl | rfl | rfl | rfl | rfl | rfl | rfl := h <;> rfl

/-- A read of an address no image claims, in the window. -/
theorem busRead_of_pia {sel : BitVec 2} (h : s.reachesPia addr sel) : busRead addr s = piaRead sel s := by
  have hr := (romRead_eq_none_iff s.cfg.romVectorTruncate s.rom addr).2 h.1
  obtain ⟨hw, rfl⟩ := (windowRow_iff addr sel).1 h.2
  simp [busRead, hr, hw]

/-- A read of an address no image claims, outside the window. -/
theorem busRead_of_ram (h : s.reachesRam addr) : busRead addr s = s.give (.byte (s.ramByte addr)) := by
  have hr := (romRead_eq_none_iff s.cfg.romVectorTruncate s.rom addr).2 h.1
  simp [busRead, hr, h.2]

/-- A write of an address no image claims, in the window. -/
theorem busWrite_of_pia {sel : BitVec 2} (h : s.reachesPia addr sel) (data : Byte) :
    busWrite addr data s = (piaWrite sel data s).give .nothing := by
  have hr := (romWrite_eq_none_iff s.cfg.romVectorTruncate s.cfg.romWritable s.rom addr data).2 h.1
  obtain ⟨hw, rfl⟩ := (windowRow_iff addr sel).1 h.2
  simp [busWrite, hr, hw]

/-- A write of an address no image claims, outside the window. -/
theorem busWrite_of_ram (h : s.reachesRam addr) (data : Byte) :
    busWrite addr data s = (s.storeRam addr data).give .nothing := by
  have hr := (romWrite_eq_none_iff s.cfg.romVectorTruncate s.cfg.romWritable s.rom addr data).2 h.1
  simp [busWrite, hr, h.2]

/-- The store that answers an access: exactly one of the images, a PIA register, or RAM (20_memory.md R52). -/
theorem access_cases :
    s.romClaims addr = true ∨ (∃ k, s.reachesPia addr (dataSel k)) ∨ (∃ k, s.reachesPia addr (controlSel k)) ∨
      s.reachesRam addr := by
  cases hc : s.romClaims addr
  · cases hw : inWindow addr
    · exact .inr (.inr (.inr ⟨hc, hw⟩))
    · rcases sel_cases (selector addr) with ⟨-, hs⟩ | ⟨-, hs⟩
      · exact .inr (.inl ⟨_, hc, (windowRow_iff _ _).2 ⟨hw, hs⟩⟩)
      · exact .inr (.inr (.inl ⟨_, hc, (windowRow_iff _ _).2 ⟨hw, hs⟩⟩))
  · exact .inl rfl

/-- A read of a claimed address gives some byte of the images and changes nothing. -/
theorem busRead_of_claims (h : s.romClaims addr = true) :
    ∃ v, romRead s.cfg.romVectorTruncate s.rom addr = some v ∧ busRead addr s = s.give (.byte v) := by
  cases hr : romRead s.cfg.romVectorTruncate s.rom addr with
  | none => exact absurd ((romRead_eq_none_iff _ _ _).1 hr) (by simpa [State.romClaims] using h)
  | some v => exact ⟨v, rfl, by simp [busRead, hr]⟩

/-- A write of a claimed address changes the images at most, not their shape. -/
theorem busWrite_of_claims (h : s.romClaims addr = true) (data : Byte) :
    ∃ roms, romWrite s.cfg.romVectorTruncate s.cfg.romWritable s.rom addr data = some roms ∧
      romShape roms = romShape s.rom ∧ busWrite addr data s = (s.setRom roms).give .nothing := by
  cases hr : romWrite s.cfg.romVectorTruncate s.cfg.romWritable s.rom addr data with
  | none => exact absurd ((romWrite_eq_none_iff _ _ _ _ _).1 hr) (by simpa [State.romClaims] using h)
  | some roms => exact ⟨roms, rfl, romWrite_shape hr, by simp [busWrite, hr]⟩

/-- What a bus read can do. -/
theorem busRead_cases :
    (s.romClaims addr = true ∧ ∃ v, romRead s.cfg.romVectorTruncate s.rom addr = some v ∧
      busRead addr s = s.give (.byte v)) ∨
    (∃ k, s.reachesPia addr (dataSel k) ∧
      busRead addr s = (s.setSec k { s.sec k with cr := clearFlags (s.sec k).cr }).give (.byte (s.port k))) ∨
    (∃ k, s.reachesPia addr (controlSel k) ∧ busRead addr s = s.give (.byte (s.sec k).cr)) ∨
    (s.reachesRam addr ∧ busRead addr s = s.give (.byte (s.ramByte addr))) := by
  rcases access_cases s addr with h | ⟨k, h⟩ | ⟨k, h⟩ | h
  · exact .inl ⟨h, busRead_of_claims s addr h⟩
  · exact .inr (.inl ⟨k, h, by rw [busRead_of_pia s addr h, piaRead_dataSel, piaReadData_spec]⟩)
  · exact .inr (.inr (.inl ⟨k, h, by rw [busRead_of_pia s addr h, piaRead_controlSel]⟩))
  · exact .inr (.inr (.inr ⟨h, busRead_of_ram s addr h⟩))

/-- What a bus write can do. -/
theorem busWrite_cases (data : Byte) :
    (s.romClaims addr = true ∧ ∃ roms, romWrite s.cfg.romVectorTruncate s.cfg.romWritable s.rom addr data = some roms ∧
      romShape roms = romShape s.rom ∧ busWrite addr data s = (s.setRom roms).give .nothing) ∨
    (∃ k, s.reachesPia addr (dataSel k) ∧ (s.cfgOf k).portMode = true ∧
      busWrite addr data s = (piaWriteOut k data s).give .nothing) ∨
    (∃ k, s.reachesPia addr (dataSel k) ∧ (s.cfgOf k).portMode = false ∧
      busWrite addr data s = (s.setSec k { s.sec k with ddr := data }).give .nothing) ∨
    (∃ k, s.reachesPia addr (controlSel k) ∧ busWrite addr data s = (piaWriteControl k data s).give .nothing) ∨
    (s.reachesRam addr ∧ busWrite addr data s = (s.storeRam addr data).give .nothing) := by
  rcases access_cases s addr with h | ⟨k, h⟩ | ⟨k, h⟩ | h
  · exact .inl ⟨h, busWrite_of_claims s addr h data⟩
  · cases hp : (s.cfgOf k).portMode
    · exact .inr (.inr (.inl ⟨k, h, hp, by rw [busWrite_of_pia s addr h]; simp [piaWrite, hp, piaWriteDdr]⟩))
    · exact .inr (.inl ⟨k, h, hp, by rw [busWrite_of_pia s addr h]; simp [piaWrite, hp]⟩)
  · exact .inr (.inr (.inr (.inl ⟨k, h, by rw [busWrite_of_pia s addr h]; simp [piaWrite]⟩)))
  · exact .inr (.inr (.inr (.inr ⟨h, busWrite_of_ram s addr h data⟩)))

/-! ## The inspection path -/

/-- The first claim of a list of images, counted from `n`: an image of the list, at its offset. -/
theorem firstClaim_spec (trunc : Bool) (roms : List RomImage) (n : Nat) :
    (firstClaim trunc addr n roms = none ∧ romRead trunc roms addr = none) ∨
      ∃ j img, firstClaim trunc addr n roms = some (n + j, addr.toNat - img.base.toNat) ∧ roms[j]? = some img ∧
        romRead trunc roms addr = img.bytes[addr.toNat - img.base.toNat]? ∧ claims trunc img addr = true := by
  induction roms generalizing n with
  | nil => exact .inl ⟨rfl, rfl⟩
  | cons img roms ih =>
    cases h : claims trunc img addr
    · rcases ih (n + 1) with ⟨h1, h2⟩ | ⟨j, img', h1, h2, h3, h4⟩
      · exact .inl ⟨by simp [firstClaim, h, h1], by simp [romRead_cons, h, h2]⟩
      · refine .inr ⟨j + 1, img', ?_, by simpa using h2, by simp [romRead_cons, h, h3], h4⟩
        simp only [firstClaim, h, Bool.false_eq_true, if_false, h1]
        congr 2; omega
    · exact .inr ⟨0, img, by simp [firstClaim, h], by simp, by simp [romRead_cons, h, probeRead], h⟩

end Sys2Proof.Machine
end

