-- ==== Sys2Proof/Laws/Decode.lean ====
section
/-! SUPPORT. The small laws of the operation records: each operand byte reads back, and a batch's events do. -/

namespace Sys2Proof

@[simp] theorem byteBool_boolByte (b : Bool) : byteBool (boolByte b) = some b := by cases b <;> rfl
@[simp] theorem byteSection_sectionByte (k : Section) : byteSection (sectionByte k) = some k := by cases k <;> rfl
@[simp] theorem byteSignal_signalByte (sig : Signal) : byteSignal (signalByte sig) = some sig := by cases sig <;> rfl

@[simp] theorem byteSelector_setWidth (sel : BitVec 2) : byteSelector (sel.setWidth 8) = some sel := by
  revert sel; decide

/-- The two bytes of a 16-bit number give it back. -/
theorem wordOf_lowByte_highByte {n : Nat} (h : n < 0x10000) : wordOf (lowByte n) (highByte n) = n := by
  simp only [wordOf, lowByte, highByte, BitVec.toNat_ofNat]
  omega

/-- A number of two bytes fits 16 bits. -/
theorem wordOf_lt (lo hi : Byte) : wordOf lo hi < 0x10000 := by
  have := lo.isLt; have := hi.isLt
  unfold wordOf; omega

@[simp] theorem lowByte_wordOf (lo hi : Byte) : lowByte (wordOf lo hi) = lo := by
  have := lo.isLt; have := hi.isLt
  apply BitVec.eq_of_toNat_eq
  simp only [wordOf, lowByte, BitVec.toNat_ofNat]
  omega

@[simp] theorem highByte_wordOf (lo hi : Byte) : highByte (wordOf lo hi) = hi := by
  have := lo.isLt; have := hi.isLt
  apply BitVec.eq_of_toNat_eq
  simp only [wordOf, highByte, BitVec.toNat_ofNat]
  omega

/-- The two address bytes of a record give the address back. -/
theorem addr_of_bytes (addr : Addr) : ((addr >>> 8).setWidth 8 : Byte) ++ (addr.setWidth 8 : Byte) = addr := by
  apply BitVec.eq_of_getLsbD_eq
  intro i hi
  simp only [BitVec.getLsbD_append, BitVec.getLsbD_setWidth, BitVec.getLsbD_ushiftRight]
  by_cases h : i < 8
  · simp [h]
  · have h2 : i - 8 < 8 := by omega
    have h3 : 8 + (i - 8) = i := by omega
    simp [h, h2, h3]

/-- The record of an address, a kind and three operand bytes is decoded from those. -/
theorem decode_record (addr : Addr) (kind p q r : Byte) (rest : List Byte) :
    decode (record addr kind p q r ++ rest) = decodeRecord addr kind p q r rest := by
  simp only [record, decode, List.cons_append, List.nil_append, addr_of_bytes]

/-- A batch's events read back from their groups. -/
theorem decodeEvents_encodeEvents (es : List KeyEvent) (h : ∀ e ∈ es, e.key < 0x10000) (rest : List Byte) :
    decodeEvents (encodeEvents es ++ rest) = .ok (es, rest) := by
  induction es with
  | nil => simp [encodeEvents, decodeEvents]
  | cons e es ih =>
    have hk := h e (by simp)
    have ih := ih fun e' he' => h e' (by simp [he'])
    obtain ⟨key, shift⟩ := e
    cases shift <;> simp [encodeEvents, decodeEvents, ih, consEvent, wordOf_lowByte_highByte hk]

/-- The two bytes of an address, as a record lays them out. -/
theorem bytes_of_addr (hi lo : Byte) :
    ((hi ++ lo : Addr).setWidth 8 : Byte) = lo ∧ (((hi ++ lo : Addr) >>> 8).setWidth 8 : Byte) = hi := by
  have hl := lo.isLt
  have hh := hi.isLt
  have e : (hi ++ lo : Addr).toNat = hi.toNat * 256 + lo.toNat := by
    rw [BitVec.toNat_append, Nat.shiftLeft_eq, ← Nat.shiftLeft_eq, ← Nat.shiftLeft_add_eq_or_of_lt hl, Nat.shiftLeft_eq]
  constructor
  · apply BitVec.eq_of_toNat_eq
    rw [BitVec.toNat_setWidth, e]; omega
  · apply BitVec.eq_of_toNat_eq
    rw [BitVec.toNat_setWidth, BitVec.toNat_ushiftRight, Nat.shiftRight_eq_div_pow, e]; omega

/-- The groups an accepted batch was read from. -/
theorem encodeEvents_of_decodeEvents : (bytes : List Byte) → (es : List KeyEvent) → (rest : List Byte) →
    decodeEvents bytes = .ok (es, rest) → (∀ e ∈ es, e.key < 0x10000) ∧ bytes = encodeEvents es ++ rest
  | [], _, _, h => by simp [decodeEvents] at h
  | [_], _, _, h => by simp [decodeEvents] at h
  | [_, _], _, _, h => by simp [decodeEvents] at h
  | mark :: lo :: hi :: bs, es, rest, h => by
    have key : ∀ shift, consEvent { key := wordOf lo hi, shift := shift } (decodeEvents bs) = .ok (es, rest) →
        ∃ es', es = { key := wordOf lo hi, shift := shift } :: es' ∧ (∀ e ∈ es', e.key < 0x10000) ∧
          bs = encodeEvents es' ++ rest := by
      intro shift h
      cases hd : decodeEvents bs with
      | error e => rw [hd] at h; cases h
      | ok p =>
        obtain ⟨es', r'⟩ := p
        rw [hd] at h
        simp only [consEvent, Except.ok.injEq, Prod.mk.injEq] at h
        obtain ⟨rfl, rfl⟩ := h
        obtain ⟨i1, i2⟩ := encodeEvents_of_decodeEvents bs es' r' hd
        exact ⟨es', rfl, i1, i2⟩
    have cons_lt : ∀ (shift : Bool) (es' : List KeyEvent), (∀ e ∈ es', e.key < 0x10000) →
        ∀ e ∈ (⟨wordOf lo hi, shift⟩ : KeyEvent) :: es', e.key < 0x10000 := by
      intro shift es' h e he
      rcases List.mem_cons.1 he with rfl | he
      · exact wordOf_lt _ _
      · exact h e he
    simp only [decodeEvents] at h
    split at h
    · next h0 =>
      split at h
      · next hz => cases h; simp [encodeEvents, h0, hz]
      · cases h
    · split at h
      · next h1 =>
        obtain ⟨es', rfl, h2, h3⟩ := key _ h
        exact ⟨cons_lt _ _ h2, by simp [encodeEvents, h1, h3]⟩
      · split at h
        · next h1 =>
          obtain ⟨es', rfl, h2, h3⟩ := key _ h
          exact ⟨cons_lt _ _ h2, by simp [encodeEvents, h1, h3]⟩
        · cases h

end Sys2Proof
end

