-- ==== Sys2Proof/Laws/Operands.lean ====
section
/-! SUPPORT. The operand forms as propositions over numbers. -/

namespace Sys2Proof.Machine

/-- The window in numbers (30_encoding.md R71). -/
theorem inWindow_iff (addr : Addr) : inWindow addr = true ↔ 0xD010 ≤ addr.toNat ∧ addr.toNat ≤ 0xD01F := by
  unfold inWindow piaFirst piaLast; rw [Bool.and_eq_true, decide_eq_true_iff, decide_eq_true_iff]

/-- What an image claims, in numbers (41_bus.md R110). -/
theorem claims_iff (trunc : Bool) (img : RomImage) (addr : Addr) :
    claims trunc img addr = true ↔
      img.base.toNat ≤ addr.toNat ∧ addr.toNat < img.base.toNat + effLen trunc img := by
  unfold claims; rw [Bool.and_eq_true, decide_eq_true_iff, decide_eq_true_iff]

/-- The printable range in numbers (42_terminal.md R135). -/
theorem printable_iff (b : Byte) : printable b = true ↔ 0x20 ≤ b.toNat ∧ b.toNat ≤ 0x5F := by
  unfold printable printLo printHi; rw [Bool.and_eq_true, decide_eq_true_iff, decide_eq_true_iff]

/-- The range of key codes in numbers (30_encoding.md R78). -/
theorem keyCodeOk_iff (c : Byte) : keyCodeOk c = true ↔ 0x01 ≤ c.toNat ∧ c.toNat ≤ 0x5F := by
  unfold keyCodeOk keyLo keyHi; rw [Bool.and_eq_true, decide_eq_true_iff, decide_eq_true_iff]

/-- An accepted key is found in its table with a code in range (43_keyboard.md R151). -/
theorem acceptedCode_iff (cfg : Config) (key : Nat) (shift : Bool) (c : Byte) :
    acceptedCode cfg key shift = some c ↔ lookupKey cfg key shift = some c ∧ 0x01 ≤ c.toNat ∧ c.toNat ≤ 0x5F := by
  unfold acceptedCode; rw [Option.filter_eq_some_iff, keyCodeOk_iff]

/-- The default layout decodes by its bits (10_state.md R28). -/
theorem decodeCfg_standardLayout (cr : Byte) : decodeCfg standardLayout cr = standardCfg (cr.setWidth 6) := by
  unfold decodeCfg standardLayout
  rw [Vector.getElem_ofFn]
  exact congrArg _ ((BitVec.ofNat_toNat _ _).trans (BitVec.setWidth_eq _))

end Sys2Proof.Machine
end

