-- ==== Sys2Proof/Laws/Terminal.lean ====
section
/-! SUPPORT. The laws of the terminal: cells, the momentary cursor, and what one step and a drain do to the queue. -/

namespace Sys2Proof.Machine

/-! ## Cells -/

/-- A cell after one cell was replaced. -/
theorem cellAt_putCell {α : Type} (g : CellArray α) (y r : Fin gridRows) (x c : Fin gridCols) (v : α) :
    cellAt (putCell g y x v) r c = if r = y ∧ c = x then v else cellAt g r c := by
  unfold cellAt putCell
  by_cases hr : r = y
  · subst hr
    by_cases hc : c = x
    · subst hc; simp
    · have : x.val ≠ c.val := fun e => hc (Fin.ext e.symm)
      simp [hc, this]
  · have : y.val ≠ r.val := fun e => hr (Fin.ext e.symm)
    simp [hr, this]

/-- A cell after a scroll: the one below it, or the blank in the last row (42_terminal.md R137). -/
theorem cellAt_scrollUp {α : Type} (g : CellArray α) (blank : α) (r : Fin gridRows) (c : Fin gridCols) :
    cellAt (scrollUp g blank) r c = if h : r.val + 1 < gridRows then cellAt g ⟨r.val + 1, h⟩ c else blank := by
  unfold cellAt scrollUp
  by_cases h : r.val + 1 < gridRows
  · simp [h]
  · simp [h]

/-- A cell of a uniform array. -/
@[simp] theorem cellAt_replicate {α : Type} (v : α) (r : Fin gridRows) (c : Fin gridCols) :
    cellAt (Vector.replicate gridRows (Vector.replicate gridCols v)) r c = v := by
  simp [cellAt]

/-! ## The parts of a step leave the queue alone -/

@[simp] theorem Terminal.renderNormal_queue (g : GlyphTable) (c : Cursor) (t : Terminal) :
    (t.renderNormal g c).queue = t.queue := rfl
@[simp] theorem Terminal.renderNormal_grid (g : GlyphTable) (c : Cursor) (t : Terminal) :
    (t.renderNormal g c).grid = t.grid := rfl
@[simp] theorem Terminal.renderNormal_cur (g : GlyphTable) (c : Cursor) (t : Terminal) :
    (t.renderNormal g c).cur = t.cur := rfl
@[simp] theorem Terminal.renderInv_queue (g : GlyphTable) (c : Cursor) (t : Terminal) :
    (t.renderInv g c).queue = t.queue := rfl
@[simp] theorem Terminal.renderInv_grid (g : GlyphTable) (c : Cursor) (t : Terminal) :
    (t.renderInv g c).grid = t.grid := rfl
@[simp] theorem Terminal.renderInv_cur (g : GlyphTable) (c : Cursor) (t : Terminal) :
    (t.renderInv g c).cur = t.cur := rfl

@[simp] theorem Terminal.place_queue (g : GlyphTable) (b : Byte) (t : Terminal) : (t.place g b).term.queue = t.queue := by
  unfold Terminal.place; cases byteClass b <;> rfl
@[simp] theorem wrapColumn_term (p : Placed) : (wrapColumn p).term = p.term := by
  unfold wrapColumn; by_cases h : p.x = gridCols <;> simp [h]
@[simp] theorem overflowRow_queue (p : Placed) : (overflowRow p).term.queue = p.term.queue := by
  unfold overflowRow; by_cases h : p.y = gridRows <;> simp [h, Terminal.scroll]
@[simp] theorem settleCursor_queue (p : Placed) : (settleCursor p).queue = p.term.queue := rfl
@[simp] theorem settleCursor_grid (p : Placed) : (settleCursor p).grid = p.term.grid := rfl
@[simp] theorem settleCursor_pix (p : Placed) : (settleCursor p).pix = p.term.pix := rfl

/-- What a byte does to the terminal leaves the queue alone. -/
@[simp] theorem Terminal.process_queue (g : GlyphTable) (b : Byte) (t : Terminal) : (t.process g b).queue = t.queue := by
  simp [Terminal.process]

/-- What a byte does to the grid, the cursor and the surface does not depend on the queue. -/
theorem Terminal.process_setQueue (g : GlyphTable) (b : Byte) (t : Terminal) (q : List Byte) :
    ({ t with queue := q }).process g b = { t.process g b with queue := q } := by
  have place_eq : ∀ (b : Byte) (t : Terminal), ({ t with queue := q }).place g b =
      { t.place g b with term := { (t.place g b).term with queue := q } } := by
    intro b t; unfold Terminal.place; cases byteClass b <;> rfl
  have wrap_eq : ∀ p : Placed, wrapColumn { p with term := { p.term with queue := q } } =
      { wrapColumn p with term := { (wrapColumn p).term with queue := q } } := by
    intro p; unfold wrapColumn; split <;> rfl
  have over_eq : ∀ p : Placed, overflowRow { p with term := { p.term with queue := q } } =
      { overflowRow p with term := { (overflowRow p).term with queue := q } } := by
    intro p; unfold overflowRow; split <;> rfl
  simp only [Terminal.process]
  rw [show Terminal.renderNormal g t.cur { t with queue := q } = { t.renderNormal g t.cur with queue := q } from rfl]
  rw [place_eq, wrap_eq, over_eq]
  rfl

/-! ## The momentary cursor (10_state.md R35) -/

/-- After step 3 the column is at most 40 and the row at most 24, never both at their ends. -/
theorem Terminal.place_bounds (g : GlyphTable) (b : Byte) (t : Terminal) :
    (t.place g b).x ≤ gridCols ∧ (t.place g b).y ≤ gridRows ∧ ((t.place g b).x = gridCols → (t.place g b).y < gridRows) := by
  have hx := t.cur.x.isLt
  have hy := t.cur.y.isLt
  unfold Terminal.place
  cases byteClass b <;> simp only [gridCols, gridRows] at * <;> omega

/-- After steps 4 and 5 the cursor is in range, so settling it takes no remainder (log 18). -/
theorem placed_in_range (g : GlyphTable) (b : Byte) (t : Terminal) :
    (overflowRow (wrapColumn (t.place g b))).x < gridCols ∧ (overflowRow (wrapColumn (t.place g b))).y < gridRows := by
  obtain ⟨hx, hy, hxy⟩ := Terminal.place_bounds g b t
  unfold overflowRow wrapColumn
  simp only [gridCols, gridRows] at *
  split <;> split <;> simp_all <;> omega

/-! ## The steps of the state machine, one by one -/

/-- The class of a folded byte by its value (30_encoding.md R79). -/
theorem byteClass_eq (b : Byte) :
    byteClass b = if b = 0x0D then .cr else if 0x20 ≤ b.toNat ∧ b.toNat ≤ 0x5F then .print else .ignored := by
  revert b; decide

theorem wrapColumn_stay (t : Terminal) {x : Nat} (y : Nat) (h : x ≠ 40) : wrapColumn ⟨t, x, y⟩ = ⟨t, x, y⟩ := if_neg h
theorem wrapColumn_move (t : Terminal) {x : Nat} (y : Nat) (h : x = 40) : wrapColumn ⟨t, x, y⟩ = ⟨t, 0, y + 1⟩ := if_pos h
theorem overflowRow_stay (t : Terminal) (x : Nat) {y : Nat} (h : y ≠ 24) : overflowRow ⟨t, x, y⟩ = ⟨t, x, y⟩ := if_neg h
theorem overflowRow_scroll (t : Terminal) (x : Nat) {y : Nat} (h : y = 24) : overflowRow ⟨t, x, y⟩ = ⟨t.scroll, x, 23⟩ :=
  if_pos h

@[simp] theorem Terminal.scroll_queue (t : Terminal) : t.scroll.queue = t.queue := by unfold Terminal.scroll; rfl
@[simp] theorem Terminal.scroll_grid (t : Terminal) : t.scroll.grid = scrollUp t.grid spaceCode := by
  unfold Terminal.scroll; rfl
@[simp] theorem Terminal.scroll_pix (t : Terminal) : t.scroll.pix = scrollUp t.pix blankGlyph := by
  unfold Terminal.scroll; rfl

/-- Settling a cursor that is in range puts it there (log 18). -/
theorem settleCursor_at (t : Terminal) (x : Fin gridCols) (y : Fin gridRows) :
    settleCursor ⟨t, x.val, y.val⟩ = { t with cur := { x := x, y := y } } := by
  simp only [settleCursor]; congr 2 <;> ext <;> simp [Fin.ofNat, Nat.mod_eq_of_lt]

/-- What a byte does to the terminal, as one expression. -/
theorem Terminal.process_eq (g : GlyphTable) (b : Byte) (t : Terminal) :
    t.process g b =
      (settleCursor (overflowRow (wrapColumn ((t.renderNormal g t.cur).place g (foldByte b))))).renderInv g
        (settleCursor (overflowRow (wrapColumn ((t.renderNormal g t.cur).place g (foldByte b))))).cur := rfl

/-! ## Steps and drains -/

@[simp] theorem Terminal.step_empty (g : GlyphTable) {t : Terminal} (h : t.queue = []) : t.step g = t := by
  simp [Terminal.step, h]

theorem Terminal.step_cons (g : GlyphTable) {t : Terminal} {b : Byte} {q : List Byte} (h : t.queue = b :: q) :
    t.step g = ({ t with queue := q }).process g b := by
  simp [Terminal.step, h]

/-- A step takes exactly the front byte from the queue (42_terminal.md R132). -/
@[simp] theorem Terminal.step_queue (g : GlyphTable) (t : Terminal) : (t.step g).queue = t.queue.tail := by
  cases h : t.queue with
  | nil => simp [h]
  | cons b q => simp [Terminal.step_cons g h]

/-- As many steps as the queue is long empty it. -/
theorem Terminal.steps_queue (g : GlyphTable) (n : Nat) (t : Terminal) : (Terminal.steps g n t).queue = t.queue.drop n := by
  induction n generalizing t with
  | zero => rfl
  | succ n ih => simp [Terminal.steps, ih]

/-- A drain leaves the queue empty (42_terminal.md R139). -/
@[simp] theorem Terminal.drain_queue (g : GlyphTable) (t : Terminal) : (t.drain g).queue = [] := by
  simp [Terminal.drain, Terminal.steps_queue]

/-- A drain of an empty queue does nothing (42_terminal.md R139). -/
theorem Terminal.drain_empty (g : GlyphTable) {t : Terminal} (h : t.queue = []) : t.drain g = t := by
  simp [Terminal.drain, h, Terminal.steps]

/-- A drain is a step and a drain of what is left (42_terminal.md R139). -/
theorem Terminal.drain_step (g : GlyphTable) {t : Terminal} (h : t.queue ≠ []) : t.drain g = (t.step g).drain g := by
  cases hq : t.queue with
  | nil => exact absurd hq h
  | cons b q => simp [Terminal.drain, hq, Terminal.steps]

/-- A byte keeps the grid printable (42_terminal.md R143). -/
theorem Terminal.process_gridPrintable (g : GlyphTable) (b : Byte) {t : Terminal} (h : t.gridPrintable) :
    (t.process g b).gridPrintable := by
  have hp : ((t.renderNormal g t.cur).place g (foldByte b)).term.gridPrintable := by
    unfold Terminal.place
    cases hc : byteClass (foldByte b)
    · exact h
    · intro y x
      show printable (cellAt (putCell t.grid t.cur.y t.cur.x (foldByte b)) y x) = true
      rw [cellAt_putCell]; split
      · rw [byteClass_eq] at hc
        split at hc
        · cases hc
        · split at hc
          · next h => exact (printable_iff _).2 h
          · cases hc
      · exact h y x
    · exact h
  intro y x
  rw [Terminal.process_eq, Terminal.renderInv_grid, settleCursor_grid, overflowRow]
  split
  · show printable (cellAt (Terminal.scroll _).grid y x) = true
    rw [Terminal.scroll_grid, wrapColumn_term, cellAt_scrollUp]; split
    · exact hp _ _
    · rfl
  · rw [wrapColumn_term]; exact hp y x

/-- So does a step. -/
theorem Terminal.step_gridPrintable (g : GlyphTable) {t : Terminal} (h : t.gridPrintable) : (t.step g).gridPrintable := by
  cases hq : t.queue with
  | nil => rw [Terminal.step_empty g hq]; exact h
  | cons b q => rw [Terminal.step_cons g hq]; exact Terminal.process_gridPrintable g b h

/-- A step keeps the queue within its capacity. -/
theorem Terminal.step_queueWithin (g : GlyphTable) {cap : Option Nat} {t : Terminal} (h : t.queueWithin cap) :
    (t.step g).queueWithin cap := by
  intro n hn
  have := h n hn
  rw [Terminal.step_queue, List.length_tail]; omega

/-- Packaged induction: what holds of a terminal and is kept by every step holds after a drain. -/
theorem Terminal.drain_induction (g : GlyphTable) {P : Terminal → Prop} (hstep : ∀ t, P t → P (t.step g)) {t : Terminal}
    (h : P t) : P (t.drain g) := by
  have key : ∀ n t, P t → P (Terminal.steps g n t) := by
    intro n
    induction n with
    | zero => exact fun _ h => h
    | succ n ih => exact fun t h => ih _ (hstep t h)
  exact key _ _ h

end Sys2Proof.Machine
end

