-- ==== Sys2Proof/Laws/Exec.lean ====
section
/-! SUPPORT. What the execution of an operation can do, said once, with the rows of a bus access taken together; what
each assignment of a control line leaves; and what the strobe of a key leaves. -/

namespace Sys2Proof.Machine

variable (s : State) (k : Section)

/-! ## Control lines -/

/-- Every assignment of line 1 (40_pia.md R99). -/
theorem setC1_spec (sig : Signal) :
    setC1 k sig s =
      if sig ≠ (s.sec k).c1 ∧ sig = (s.cfgOf k).c1Edge then
        { s.setSec k { s.sec k with
            c1 := sig
            cr := setFlag1 (s.sec k).cr
            c2 := if (s.cfgOf k).c2Mode = .handshake then .rise else (s.sec k).c2 } with
          trace := s.trace ++
            (if irqLevelOf (s.cfgOf k) (setFlag1 (s.sec k).cr) then requestEvents s.cfg.irqRouting k else []) ++
            (if (s.cfgOf k).c2Mode = .handshake then [.lineOut k .rise] else []) }
      else s.setSec k { s.sec k with c1 := sig } := by
  unfold setC1
  simp only []
  split
  · rw [activeC1_spec]; cases k <;> rfl
  · rfl

/-- Every assignment of line 2 (40_pia.md R100). -/
theorem setC2_spec (sig : Signal) :
    (∃ enabled, (s.cfgOf k).c2Mode = .input sig enabled ∧ sig ≠ (s.sec k).c2 ∧
      setC2 k sig s =
        { s.setSec k { s.sec k with c2 := sig, cr := setFlag2 (s.sec k).cr } with
          trace := s.trace ++
            (if irqLevelOf (s.cfgOf k) (setFlag2 (s.sec k).cr) then requestEvents s.cfg.irqRouting k else []) }) ∨
    setC2 k sig s = s.setSec k { s.sec k with c2 := sig } := by
  unfold setC2
  cases hm : (s.cfgOf k).c2Mode with
  | input edge enabled =>
    by_cases h : sig ≠ (s.sec k).c2 ∧ sig = edge
    · obtain ⟨hne, rfl⟩ := h
      refine .inl ⟨enabled, rfl, hne, ?_⟩
      simp only [hne, ne_eq, not_false_eq_true, and_self, if_true]
      rw [activeC2_spec]; cases k <;> rfl
    · exact .inr (if_neg h)
  | manual _ => exact .inr rfl
  | handshake => exact .inr rfl
  | pulse => exact .inr rfl

/-- An assignment of line 1 neither reads nor writes the result. -/
theorem setC1_give (sig : Signal) (r : Result) : setC1 k sig (s.give r) = (setC1 k sig s).give r := by
  simp only [setC1_spec, State.give_sec, State.give_cfgOf]
  split <;> cases k <;> rfl

/-! ## The strobe -/

/-- The events of one active edge of CA1. -/
def edgeEvents (s : State) : List Event :=
  (if irqLevelOf (s.cfgOf .a) (setFlag1 s.secA.cr) then requestEvents s.cfg.irqRouting .a else []) ++
    (if (s.cfgOf .a).c2Mode = .handshake then [.lineOut .a .rise] else [])

/-- What the strobe of a code leaves (43_keyboard.md R152). -/
theorem strobe_spec (c : Byte) :
    strobe c s =
      { s with
        secA := { s.secA with
          inReg := latchedCode c
          cr := setFlag1 s.secA.cr
          c1 := .fall
          c2 := if (s.cfgOf .a).c2Mode = .handshake then .rise else s.secA.c2 }
        trace := s.trace ++
          (if (s.cfgOf .a).c1Edge = .fall ∧ s.secA.c1 = .rise then edgeEvents s ++ edgeEvents s else edgeEvents s) } := by
  obtain ⟨⟨o, ir, d, cr, c1, c2⟩, sB, ram, rom, cyc, term, tr, res, pend, cfg⟩ := s
  obtain ⟨⟨en, edge, pm, mode⟩, hm⟩ : ∃ c, decodeCfg cfg.cfgLayout cr = c := ⟨_, rfl⟩
  have hidem : setFlag1 (setFlag1 cr) = setFlag1 cr := by generalize cr = x; revert x; decide
  by_cases hmode : mode = .handshake <;> cases edge <;> cases c1 <;>
    simp [strobe, setIn, setC1_spec, State.cfgOf, State.sec, State.setSec, edgeEvents, hm, hidem, hmode]

/-- An accepted key is its strobe (43_keyboard.md R151). -/
theorem exec_keyDown_accepted {key : Nat} {shift : Bool} {c : Byte} (h : acceptedCode s.cfg key shift = some c) :
    exec (.keyDown key shift) s = .next ((strobe c s).give .nothing) := by
  simp [exec, execKeyDown, h, strobeIf]

/-- A key that is not accepted does nothing (43_keyboard.md R151). -/
theorem exec_keyDown_ignored {key : Nat} {shift : Bool} (h : acceptedCode s.cfg key shift = none) :
    exec (.keyDown key shift) s = .next (s.give .nothing) := by
  simp [exec, execKeyDown, h, strobeIf]

/-! ## The bytes of port B among the events -/

@[simp] theorem portBBytes_nil : portBBytes [] = [] := rfl
@[simp] theorem portBBytes_append (es fs : List Event) : portBBytes (es ++ fs) = portBBytes es ++ portBBytes fs :=
  List.filterMap_append ..
/-- A signalled request carries no byte (60_exceptions.md R166). -/
@[simp] theorem portBBytes_requestEvents (r : IrqRouting) : portBBytes (requestEvents r k) = [] := by
  unfold requestEvents; split <;> rfl
/-- Nor does an evaluation that may signal one. -/
@[simp] theorem portBBytes_request_if (r : IrqRouting) (p : Prop) [Decidable p] :
    portBBytes (if p then requestEvents r k else []) = [] := by
  split <;> simp
/-- Nor does a movement of line 2. -/
@[simp] theorem portBBytes_lineOut_if (sig : Signal) (p : Prop) [Decidable p] :
    portBBytes (if p then [.lineOut k sig] else []) = [] := by
  split <;> rfl
@[simp] theorem portBBytes_manualEvents (m : C2Mode) : portBBytes (manualEvents k m) = [] := by cases m <;> rfl
@[simp] theorem portBBytes_strobeEvents (m : C2Mode) : portBBytes (strobeEvents m) = [] := by cases m <;> rfl
@[simp] theorem portBBytes_edgeEvents : portBBytes (edgeEvents s) = [] := by simp [edgeEvents]

/-! ## Execution, case by case -/

/-- The queries: operations that only give something back. -/
def isQuery : Instr → Bool
  | .busRomLow      => true
  | .busRomHigh     => true
  | .busPeek _      => true
  | .romProbeRd _ _ => true
  | .piaPeek _      => true
  | _ => false

/-- What an operation that answers a next state was, and what it did. -/
theorem exec_cases {i : Instr} {t : State} (h : exec i s = .next t) :
    (∃ addr readOnly, i ∈ busReadRows addr readOnly ∧ t = busRead addr s) ∨
    (∃ addr data, i ∈ busWriteRows addr data ∧ t = busWrite addr data s) ∨
    (isQuery i = true ∧ ∃ r, t = s.give r) ∨
    (isTerminalOp i = true ∧ ∃ term, t = (s.setTerm term).give .nothing) ∨
    (∃ k v, i = .piaSetIn k v ∧ t = (setIn k v s).give .nothing) ∨
    (∃ k sig, i = .piaSetC1 k sig ∧ t = (setC1 k sig s).give .nothing) ∨
    (∃ k sig, i = .piaSetC2 k sig ∧ t = (setC2 k sig s).give .nothing) ∨
    (∃ key shift, i = .keyDown key shift ∧ t = (strobeIf (acceptedCode s.cfg key shift) s).give .nothing) ∨
    (∃ events, i = .keyBatch events ∧ t = (strobeIf (firstMatch s.cfg events) s).give .nothing) ∨
    (∃ n addr data, i = .romProbeWr n addr data ∧ exec (.romProbeWr n addr data) s = .next t) ∨
    (i = .busClk ∧ t = ((s.emit .cpuClock).setCycles (s.cycles + 1)).give .nothing) ∨
    (i = .busRst ∧ t = (busReset s).give .nothing) ∨
    (i = .sysPowerOn ∧ configValid s.cfg = true ∧ t = (powerOn s).give .nothing) ∨
    (i = .sysReset ∧ t = (systemReset s).give .nothing) := by
  cases i
  case busRdRom addr ro => cases h; exact .inl ⟨addr, ro, by simp [busReadRows], rfl⟩
  case busRdPortA addr ro => cases h; exact .inl ⟨addr, ro, by simp [busReadRows], rfl⟩
  case busRdCtrlA addr ro => cases h; exact .inl ⟨addr, ro, by simp [busReadRows], rfl⟩
  case busRdPortB addr ro => cases h; exact .inl ⟨addr, ro, by simp [busReadRows], rfl⟩
  case busRdCtrlB addr ro => cases h; exact .inl ⟨addr, ro, by simp [busReadRows], rfl⟩
  case busRdRam addr ro => cases h; exact .inl ⟨addr, ro, by simp [busReadRows], rfl⟩
  case busWrRom addr data => cases h; exact .inr (.inl ⟨addr, data, by simp [busWriteRows], rfl⟩)
  case busWrOutA addr data => cases h; exact .inr (.inl ⟨addr, data, by simp [busWriteRows], rfl⟩)
  case busWrDdrA addr data => cases h; exact .inr (.inl ⟨addr, data, by simp [busWriteRows], rfl⟩)
  case busWrCtrlA addr data => cases h; exact .inr (.inl ⟨addr, data, by simp [busWriteRows], rfl⟩)
  case busWrOutB addr data => cases h; exact .inr (.inl ⟨addr, data, by simp [busWriteRows], rfl⟩)
  case busWrDdrB addr data => cases h; exact .inr (.inl ⟨addr, data, by simp [busWriteRows], rfl⟩)
  case busWrCtrlB addr data => cases h; exact .inr (.inl ⟨addr, data, by simp [busWriteRows], rfl⟩)
  case busWrRam addr data => cases h; exact .inr (.inl ⟨addr, data, by simp [busWriteRows], rfl⟩)
  case romProbeWr n addr data => simp [h, busReadRows, busWriteRows]
  case sysPowerOn =>
    simp only [exec, execSysPowerOn] at h
    split at h
    · next hv => cases h; simp [hv]
    · cases h
  case termEnq v => cases h; exact .inr (.inr (.inr (.inl ⟨rfl, _, rfl⟩)))
  case termStep => cases h; exact .inr (.inr (.inr (.inl ⟨rfl, _, rfl⟩)))
  case termDrain => cases h; exact .inr (.inr (.inr (.inl ⟨rfl, _, rfl⟩)))
  case termClear => cases h; exact .inr (.inr (.inr (.inl ⟨rfl, _, rfl⟩)))
  case keyDown key shift =>
    cases h; exact .inr (.inr (.inr (.inr (.inr (.inr (.inr (.inl ⟨key, shift, rfl, rfl⟩)))))))
  all_goals cases h; simp [isQuery]

end Sys2Proof.Machine
end

