-- ==== Sys2Proof/Laws/Memory.lean ====
section
/-! SUPPORT. The laws of memory: a read after a write, and the canonical form kept by every write. -/

namespace Sys2Proof.Machine

@[simp] theorem Memory.read_nil (a : Nat) : Memory.read [] a = Memory.unlisted := rfl
@[simp] theorem Memory.wf_nil : Memory.wf [] = true := rfl

/-- The canonical form above a bound, one cell at a time. -/
theorem Memory.wfFrom_cons (lo k : Nat) (w : Byte) (m : Memory) :
    Memory.wfFrom lo ((k, w) :: m) = true ↔
      lo ≤ k ∧ k < Memory.size ∧ w ≠ Memory.unlisted ∧ Memory.wfFrom (k + 1) m = true := by
  simp [Memory.wfFrom, and_assoc]

/-- A canonical form above a bound is one above a lower bound. -/
theorem Memory.wfFrom_mono {lo lo' : Nat} {m : Memory} (h : lo' ≤ lo) (hm : Memory.wfFrom lo m = true) :
    Memory.wfFrom lo' m = true := by
  cases m with
  | nil => rfl
  | cons c m => obtain ⟨k, w⟩ := c; rw [Memory.wfFrom_cons] at *; exact ⟨by omega, hm.2⟩

/-- Below its bound a canonical memory lists nothing. -/
theorem Memory.read_below {lo a : Nat} {m : Memory} (hm : Memory.wfFrom lo m = true) (ha : a < lo) :
    Memory.read m a = Memory.unlisted := by
  induction m generalizing lo with
  | nil => rfl
  | cons c m ih =>
    obtain ⟨k, w⟩ := c
    rw [Memory.wfFrom_cons] at hm
    have hk : ¬ k = a := by omega
    simp only [Memory.read, hk, if_false]
    exact ih hm.2.2.2 (by omega)

/-- A write leaves every other address alone. -/
theorem Memory.read_write_other (m : Memory) {a b : Nat} (v : Byte) (h : b ≠ a) :
    Memory.read (Memory.write m a v) b = Memory.read m b := by
  have hab : ¬ a = b := fun e => h e.symm
  induction m with
  | nil => simp only [Memory.write]; split <;> simp [Memory.read, hab]
  | cons c m ih =>
    obtain ⟨k, w⟩ := c
    simp only [Memory.write]
    split
    · split <;> simp [Memory.read, hab]
    · split
      · next hk => subst hk; split <;> simp [Memory.read, hab]
      · simp only [Memory.read, ih]

/-- A read after a write to the same address gives the value written. -/
theorem Memory.read_write_same {lo : Nat} {m : Memory} (hm : Memory.wfFrom lo m = true) (a : Nat) (v : Byte) :
    Memory.read (Memory.write m a v) a = v := by
  induction m generalizing lo with
  | nil => simp only [Memory.write]; split <;> simp_all [Memory.read]
  | cons c m ih =>
    obtain ⟨k, w⟩ := c
    rw [Memory.wfFrom_cons] at hm
    simp only [Memory.write]
    split
    · next hlt =>
      split
      · next hv =>
        rw [hv]
        exact Memory.read_below (lo := k) ((Memory.wfFrom_cons _ _ _ _).2 ⟨Nat.le_refl k, hm.2⟩) hlt
      · simp [Memory.read]
    · split
      · next hk =>
        split
        · next hv => rw [hv]; exact Memory.read_below hm.2.2.2 (by omega)
        · simp [Memory.read]
      · next hk =>
        have hk' : ¬ k = a := fun e => hk e.symm
        simp only [Memory.read, hk', if_false]
        exact ih hm.2.2.2

/-- A write keeps the canonical form above a bound. -/
theorem Memory.wfFrom_write {lo : Nat} {m : Memory} (hm : Memory.wfFrom lo m = true) {a : Nat} (hlo : lo ≤ a)
    (ha : a < Memory.size) (v : Byte) : Memory.wfFrom lo (Memory.write m a v) = true := by
  induction m generalizing lo with
  | nil =>
    simp only [Memory.write]
    split
    · rfl
    · next hv => exact (Memory.wfFrom_cons _ _ _ _).2 ⟨hlo, ha, hv, rfl⟩
  | cons c m ih =>
    obtain ⟨k, w⟩ := c
    have hm' := (Memory.wfFrom_cons _ _ _ _).1 hm
    simp only [Memory.write]
    split
    · next hlt =>
      split
      · exact hm
      · next hv =>
        exact (Memory.wfFrom_cons _ _ _ _).2
          ⟨hlo, ha, hv, (Memory.wfFrom_cons _ _ _ _).2 ⟨by omega, hm'.2⟩⟩
    · split
      · next hk =>
        subst hk
        split
        · exact Memory.wfFrom_mono (by omega) hm'.2.2.2
        · next hv => exact (Memory.wfFrom_cons _ _ _ _).2 ⟨hlo, ha, hv, hm'.2.2.2⟩
      · exact (Memory.wfFrom_cons _ _ _ _).2 ⟨hm'.1, hm'.2.1, hm'.2.2.1, ih hm'.2.2.2 (by omega)⟩

/-- A write at an address of the space keeps the canonical form. -/
theorem Memory.wf_write {m : Memory} (hm : Memory.wf m = true) {a : Nat} (ha : a < Memory.size) (v : Byte) :
    Memory.wf (Memory.write m a v) = true := Memory.wfFrom_write hm (Nat.zero_le a) ha v

end Sys2Proof.Machine
end

