-- ==== Sys2Proof/Laws/PerInstr.lean ====
section
/-! SUPPORT. A statement made of every operation, one lemma each: its record begins with the six bytes of an address, a
kind and three operand bytes (30_encoding.md section 6 for the address, log 1 for the rest). -/

namespace Sys2Proof.Laws

/-- The operation's encoding is a record, with further bytes for a batch only. -/
def RecordShape.Statement (i : Instr) : Prop :=
  ∃ (addr : Addr) (kind p q r : Byte) (more : List Byte), encode i = record addr kind p q r ++ more ∧
    ((∀ events, i ≠ .keyBatch events) → more = [])

theorem RecordShape.busRdRom (addr : Addr) (readOnly : Bool) : RecordShape.Statement (.busRdRom addr readOnly) :=
  ⟨_, _, _, _, _, [], rfl, fun _ => rfl⟩
theorem RecordShape.busWrRom (addr : Addr) (data : Byte) : RecordShape.Statement (.busWrRom addr data) :=
  ⟨_, _, _, _, _, [], rfl, fun _ => rfl⟩
theorem RecordShape.busRdPortA (addr : Addr) (readOnly : Bool) : RecordShape.Statement (.busRdPortA addr readOnly) :=
  ⟨_, _, _, _, _, [], rfl, fun _ => rfl⟩
theorem RecordShape.busRdCtrlA (addr : Addr) (readOnly : Bool) : RecordShape.Statement (.busRdCtrlA addr readOnly) :=
  ⟨_, _, _, _, _, [], rfl, fun _ => rfl⟩
theorem RecordShape.busRdPortB (addr : Addr) (readOnly : Bool) : RecordShape.Statement (.busRdPortB addr readOnly) :=
  ⟨_, _, _, _, _, [], rfl, fun _ => rfl⟩
theorem RecordShape.busRdCtrlB (addr : Addr) (readOnly : Bool) : RecordShape.Statement (.busRdCtrlB addr readOnly) :=
  ⟨_, _, _, _, _, [], rfl, fun _ => rfl⟩
theorem RecordShape.busWrOutA (addr : Addr) (data : Byte) : RecordShape.Statement (.busWrOutA addr data) :=
  ⟨_, _, _, _, _, [], rfl, fun _ => rfl⟩
theorem RecordShape.busWrDdrA (addr : Addr) (data : Byte) : RecordShape.Statement (.busWrDdrA addr data) :=
  ⟨_, _, _, _, _, [], rfl, fun _ => rfl⟩
theorem RecordShape.busWrCtrlA (addr : Addr) (data : Byte) : RecordShape.Statement (.busWrCtrlA addr data) :=
  ⟨_, _, _, _, _, [], rfl, fun _ => rfl⟩
theorem RecordShape.busWrOutB (addr : Addr) (data : Byte) : RecordShape.Statement (.busWrOutB addr data) :=
  ⟨_, _, _, _, _, [], rfl, fun _ => rfl⟩
theorem RecordShape.busWrDdrB (addr : Addr) (data : Byte) : RecordShape.Statement (.busWrDdrB addr data) :=
  ⟨_, _, _, _, _, [], rfl, fun _ => rfl⟩
theorem RecordShape.busWrCtrlB (addr : Addr) (data : Byte) : RecordShape.Statement (.busWrCtrlB addr data) :=
  ⟨_, _, _, _, _, [], rfl, fun _ => rfl⟩
theorem RecordShape.busRdRam (addr : Addr) (readOnly : Bool) : RecordShape.Statement (.busRdRam addr readOnly) :=
  ⟨_, _, _, _, _, [], rfl, fun _ => rfl⟩
theorem RecordShape.busWrRam (addr : Addr) (data : Byte) : RecordShape.Statement (.busWrRam addr data) :=
  ⟨_, _, _, _, _, [], rfl, fun _ => rfl⟩
theorem RecordShape.busClk : RecordShape.Statement (.busClk) :=
  ⟨_, _, _, _, _, [], rfl, fun _ => rfl⟩
theorem RecordShape.busRst : RecordShape.Statement (.busRst) :=
  ⟨_, _, _, _, _, [], rfl, fun _ => rfl⟩
theorem RecordShape.busRomLow : RecordShape.Statement (.busRomLow) :=
  ⟨_, _, _, _, _, [], rfl, fun _ => rfl⟩
theorem RecordShape.busRomHigh : RecordShape.Statement (.busRomHigh) :=
  ⟨_, _, _, _, _, [], rfl, fun _ => rfl⟩
theorem RecordShape.busPeek (addr : Addr) : RecordShape.Statement (.busPeek addr) :=
  ⟨_, _, _, _, _, [], rfl, fun _ => rfl⟩
theorem RecordShape.romProbeRd (image : Nat) (addr : Addr) : RecordShape.Statement (.romProbeRd image addr) :=
  ⟨_, _, _, _, _, [], rfl, fun _ => rfl⟩
theorem RecordShape.romProbeWr (image : Nat) (addr : Addr) (data : Byte) : RecordShape.Statement (.romProbeWr image addr data) :=
  ⟨_, _, _, _, _, [], rfl, fun _ => rfl⟩
theorem RecordShape.piaPeek (sel : BitVec 2) : RecordShape.Statement (.piaPeek sel) :=
  ⟨_, _, _, _, _, [], rfl, fun _ => rfl⟩
theorem RecordShape.piaSetIn (sec : Section) (v : Byte) : RecordShape.Statement (.piaSetIn sec v) :=
  ⟨_, _, _, _, _, [], rfl, fun _ => rfl⟩
theorem RecordShape.piaSetC1 (sec : Section) (sig : Signal) : RecordShape.Statement (.piaSetC1 sec sig) :=
  ⟨_, _, _, _, _, [], rfl, fun _ => rfl⟩
theorem RecordShape.piaSetC2 (sec : Section) (sig : Signal) : RecordShape.Statement (.piaSetC2 sec sig) :=
  ⟨_, _, _, _, _, [], rfl, fun _ => rfl⟩
theorem RecordShape.termEnq (v : Byte) : RecordShape.Statement (.termEnq v) :=
  ⟨_, _, _, _, _, [], rfl, fun _ => rfl⟩
theorem RecordShape.termStep : RecordShape.Statement (.termStep) :=
  ⟨_, _, _, _, _, [], rfl, fun _ => rfl⟩
theorem RecordShape.termDrain : RecordShape.Statement (.termDrain) :=
  ⟨_, _, _, _, _, [], rfl, fun _ => rfl⟩
theorem RecordShape.termClear : RecordShape.Statement (.termClear) :=
  ⟨_, _, _, _, _, [], rfl, fun _ => rfl⟩
theorem RecordShape.keyDown (key : Nat) (shift : Bool) : RecordShape.Statement (.keyDown key shift) :=
  ⟨_, _, _, _, _, [], rfl, fun _ => rfl⟩
theorem RecordShape.keyBatch (events : List KeyEvent) : RecordShape.Statement (.keyBatch events) := by
  cases events with
  | nil => exact ⟨0, 0x15, 0, 0, 0, [], rfl, fun _ => rfl⟩
  | cons e es => exact ⟨0, 0x15, _, _, _, _, rfl, fun h => absurd rfl (h (e :: es))⟩
theorem RecordShape.sysPowerOn : RecordShape.Statement (.sysPowerOn) :=
  ⟨_, _, _, _, _, [], rfl, fun _ => rfl⟩
theorem RecordShape.sysReset : RecordShape.Statement (.sysReset) :=
  ⟨_, _, _, _, _, [], rfl, fun _ => rfl⟩

end Sys2Proof.Laws
end

