-- ==== Sys2Proof/Tests/Slice0.lean ====
section
/-! SUPPORT. The model's own tests. Expected results are the vectors of 95_test_vectors.md (V-…, P…), or follow by hand
from the rule named. -/

namespace Sys2Proof.Tests

open Sys2Proof.Machine

/-! ## Small states -/

/-- A glyph table: the glyph of 0x48 has every pixel set, every other glyph none. -/
def glyphs : GlyphTable := (Vector.replicate glyphCount blankGlyph).set 0x48 (Vector.replicate glyphRows 0xFF)

/-- The key tables of V-KEY, with K_A = 1, K_1 = 2, K_GRAVE = 3, K_US = 4. -/
def testCfg : Config :=
  { defaultConfig with
    glyph := glyphs
    keymapUnshifted := [(1, 0x41), (2, 0x31), (3, 0x60), (4, 0x5F)]
    keymapShifted := [(2, 0x21)] }

/-- The machine after reset with the tables above. -/
def base : State := { State.reset with cfg := testCfg }

/-- The machine with two images installed, the first covering the top of the second. -/
def withRom (writable truncate : Bool) : State :=
  let roms := [{ base := 0xFFF8, bytes := [0x10, 0x11, 0x12, 0x13] }, { base := 0xFFF6, bytes := [0x20, 0x21, 0x22, 0x23, 0x24, 0x25] }]
  { base with rom := roms, cfg := { testCfg with romImages := roms, romWritable := writable, romVectorTruncate := truncate } }

/-- Section A with given registers. -/
def secA (outReg inReg ddr cr : Byte) (c1 c2 : Signal) : State :=
  { base with secA := { outReg := outReg, inReg := inReg, ddr := ddr, cr := cr, c1 := c1, c2 := c2 } }

/-- Section B with given registers. -/
def secB (outReg inReg ddr cr : Byte) (c1 c2 : Signal) : State :=
  { base with secB := { outReg := outReg, inReg := inReg, ddr := ddr, cr := cr, c1 := c1, c2 := c2 } }

/-- A terminal with a queue and a cursor, one cell of the grid holding a code. -/
def terminal (queue : List Byte) (x : Fin gridCols) (y : Fin gridRows) (r : Fin gridRows) (c : Fin gridCols) (code : Byte) : State :=
  { base with term := { base.term with queue := queue, cur := { x := x, y := y }, grid := putCell base.term.grid r c code } }

/-- What is seen of the next state. -/
def seen {α : Type} (i : Instr) (s : State) (f : State → α) : Option α :=
  match exec i s with
  | .next t => some (f t)
  | .fault _ => none
  | .refused _ => none

/-! ## WellFormed refuses -/

theorem test_wf_portA_outside : (Instr.busRdPortA 0xD00C false).wellFormed = false := by decide
theorem test_wf_ctrlA_wrong_register : (Instr.busRdCtrlA 0xD012 false).wellFormed = false := by decide
theorem test_wf_portB_wrong_register : (Instr.busRdPortB 0xD010 false).wellFormed = false := by decide
theorem test_wf_ctrlB_outside : (Instr.busRdCtrlB 0xD023 false).wellFormed = false := by decide
theorem test_wf_outA_wrong_register : (Instr.busWrOutA 0xD01E 0).wellFormed = false := by decide
theorem test_wf_ddrA_outside : (Instr.busWrDdrA 0x0000 0).wellFormed = false := by decide
theorem test_wf_wrCtrlA_wrong_register : (Instr.busWrCtrlA 0xD010 0).wellFormed = false := by decide
theorem test_wf_outB_wrong_register : (Instr.busWrOutB 0xD01C 0).wellFormed = false := by decide
theorem test_wf_ddrB_wrong_register : (Instr.busWrDdrB 0xD013 0).wellFormed = false := by decide
theorem test_wf_wrCtrlB_wrong_register : (Instr.busWrCtrlB 0xD01E 0).wellFormed = false := by decide
theorem test_wf_rdRam_in_window : (Instr.busRdRam 0xD010 false).wellFormed = false := by decide
theorem test_wf_wrRam_in_window : (Instr.busWrRam 0xD01F 0).wellFormed = false := by decide
theorem test_wf_probeRd_image : (Instr.romProbeRd 0x10000 0).wellFormed = false := by decide
theorem test_wf_probeWr_image : (Instr.romProbeWr 0x10000 0 0).wellFormed = false := by decide
theorem test_wf_keyDown_key : (Instr.keyDown 0x10000 true).wellFormed = false := by decide
theorem test_wf_keyBatch_key : (Instr.keyBatch [⟨1, false⟩, ⟨0x10000, false⟩]).wellFormed = false := by decide

/-! ## Decoding: a word of every constructor

The first two bytes are the address of the opcode table's match column (30_encoding.md R72, R84), bits 7:0 first; the
others are the record layout of log 1. -/

theorem test_decode_busRdRom : decode [0xFC, 0xFF, 0x02, 0x00, 0x00, 0x00] = .ok (.busRdRom 0xFFFC false) [] := by decide
theorem test_decode_busWrRom : decode [0xFC, 0xFF, 0x03, 0x12, 0x00, 0x00] = .ok (.busWrRom 0xFFFC 0x12) [] := by decide
theorem test_decode_busRdPortA : decode [0x14, 0xD0, 0x00, 0x01, 0x00, 0x00] = .ok (.busRdPortA 0xD014 true) [] := by decide
theorem test_decode_busRdCtrlA : decode [0x11, 0xD0, 0x00, 0x00, 0x00, 0x00] = .ok (.busRdCtrlA 0xD011 false) [] := by decide
theorem test_decode_busRdPortB : decode [0x1E, 0xD0, 0x00, 0x00, 0x00, 0x00] = .ok (.busRdPortB 0xD01E false) [] := by decide
theorem test_decode_busRdCtrlB : decode [0x13, 0xD0, 0x00, 0x00, 0x00, 0x00] = .ok (.busRdCtrlB 0xD013 false) [] := by decide
theorem test_decode_busWrOutA : decode [0x10, 0xD0, 0x01, 0x5A, 0x00, 0x00] = .ok (.busWrOutA 0xD010 0x5A) [] := by decide
theorem test_decode_busWrDdrA : decode [0x10, 0xD0, 0x04, 0x5A, 0x00, 0x00] = .ok (.busWrDdrA 0xD010 0x5A) [] := by decide
theorem test_decode_busWrCtrlA : decode [0x1D, 0xD0, 0x01, 0x27, 0x00, 0x00] = .ok (.busWrCtrlA 0xD01D 0x27) [] := by decide
theorem test_decode_busWrOutB : decode [0x12, 0xD0, 0x01, 0xC1, 0x00, 0x00] = .ok (.busWrOutB 0xD012 0xC1) [] := by decide
theorem test_decode_busWrDdrB : decode [0x12, 0xD0, 0x04, 0x7F, 0x00, 0x00] = .ok (.busWrDdrB 0xD012 0x7F) [] := by decide
theorem test_decode_busWrCtrlB : decode [0x1F, 0xD0, 0x01, 0x04, 0x00, 0x00] = .ok (.busWrCtrlB 0xD01F 0x04) [] := by decide
theorem test_decode_busRdRam : decode [0x0F, 0xD0, 0x00, 0x00, 0x00, 0x00] = .ok (.busRdRam 0xD00F false) [] := by decide
theorem test_decode_busWrRam : decode [0x20, 0xD0, 0x01, 0xA9, 0x00, 0x00] = .ok (.busWrRam 0xD020 0xA9) [] := by decide
theorem test_decode_busClk : decode [0x00, 0x00, 0x05, 0x00, 0x00, 0x00] = .ok .busClk [] := by decide
theorem test_decode_busRst : decode [0x00, 0x00, 0x06, 0x00, 0x00, 0x00] = .ok .busRst [] := by decide
theorem test_decode_busRomLow : decode [0x00, 0x00, 0x07, 0x00, 0x00, 0x00] = .ok .busRomLow [] := by decide
theorem test_decode_busRomHigh : decode [0x00, 0x00, 0x08, 0x00, 0x00, 0x00] = .ok .busRomHigh [] := by decide
theorem test_decode_busPeek : decode [0x10, 0xD0, 0x09, 0x00, 0x00, 0x00] = .ok (.busPeek 0xD010) [] := by decide
theorem test_decode_romProbeRd : decode [0xFF, 0xFE, 0x0A, 0x01, 0x02, 0x00] = .ok (.romProbeRd 0x0201 0xFEFF) [] := by decide
theorem test_decode_romProbeWr : decode [0x10, 0xFF, 0x0B, 0x00, 0x00, 0x55] = .ok (.romProbeWr 0 0xFF10 0x55) [] := by decide
theorem test_decode_piaPeek : decode [0x00, 0x00, 0x0C, 0x03, 0x00, 0x00] = .ok (.piaPeek 3) [] := by decide
theorem test_decode_piaSetIn : decode [0x00, 0x00, 0x0D, 0x00, 0xC1, 0x00] = .ok (.piaSetIn .a 0xC1) [] := by decide
theorem test_decode_piaSetC1 : decode [0x00, 0x00, 0x0E, 0x01, 0x01, 0x00] = .ok (.piaSetC1 .b .rise) [] := by decide
theorem test_decode_piaSetC2 : decode [0x00, 0x00, 0x0F, 0x01, 0x00, 0x00] = .ok (.piaSetC2 .b .fall) [] := by decide
theorem test_decode_termEnq : decode [0x00, 0x00, 0x10, 0x48, 0x00, 0x00] = .ok (.termEnq 0x48) [] := by decide
theorem test_decode_termStep : decode [0x00, 0x00, 0x11, 0x00, 0x00, 0x00] = .ok .termStep [] := by decide
theorem test_decode_termDrain : decode [0x00, 0x00, 0x12, 0x00, 0x00, 0x00] = .ok .termDrain [] := by decide
theorem test_decode_termClear : decode [0x00, 0x00, 0x13, 0x00, 0x00, 0x00] = .ok .termClear [] := by decide
theorem test_decode_keyDown : decode [0x00, 0x00, 0x14, 0x34, 0x12, 0x01] = .ok (.keyDown 0x1234 true) [] := by decide
theorem test_decode_keyBatch :
    decode [0x00, 0x00, 0x15, 0x01, 0x09, 0x00, 0x02, 0x01, 0x01, 0x00, 0x00, 0x00, 0xEE] =
      .ok (.keyBatch [⟨9, false⟩, ⟨0x101, true⟩]) [0xEE] := by decide
theorem test_decode_sysPowerOn : decode [0x00, 0x00, 0x16, 0x00, 0x00, 0x00] = .ok .sysPowerOn [] := by decide
theorem test_decode_sysReset : decode [0x00, 0x00, 0x17, 0x00, 0x00, 0x00] = .ok .sysReset [] := by decide

theorem test_decode_rejects_unknown_kind : decode [0, 0, 0x18, 0, 0, 0] = .reject (.unknownKind 0x18) := by decide
theorem test_decode_rejects_short : decode [0, 0, 0x05] = .reject .truncated := by decide
theorem test_decode_rejects_stray : decode [1, 0, 0x05, 0, 0, 0] = .reject .strayBits := by decide
theorem test_decode_rejects_operand : decode [0, 0, 0x0D, 2, 0, 0] = .reject (.badOperand 2) := by decide
theorem test_decode_rejects_ddr : decode [0x11, 0xD0, 0x04, 0, 0, 0] = .reject (.notADirectionRow 0xD011) := by decide

/-- The four window rows and the RAM row of the opcode table, by the table's own words (log 2). -/
theorem test_tableWords :
    [decodeTableWord 16 0xD010, decodeTableWord 16 0xD011, decodeTableWord 16 0xD012, decodeTableWord 16 0xD013,
      decodeTableWord 16 0x0000] =
    [some (.busRdPortA 0xD010 false), some (.busRdCtrlA 0xD011 false), some (.busRdPortB 0xD012 false),
      some (.busRdCtrlB 0xD013 false), some (.busRdRam 0x0000 false)] := by decide

/-- A table word placed where the next step fetches runs, as the first operation after reset. -/
theorem test_fetchWord_runs :
    (match step (State.reset.withFetchWord 16 0xD011) with
      | .next t => some (t.result, t.pending)
      | .fault _ => none
      | .refused _ => none) = some (.byte 0x00, []) := by decide

/-! ## Bus reads and writes -/

/-- V-BUS-5a, on a smaller pair of images. -/
theorem test_busRdRom : seen (.busRdRom 0xFFF8 false) (withRom false false) State.result = some (.byte 0x10) := by decide
/-- V-BUS-3: the write is absorbed and RAM is untouched. -/
theorem test_busWrRom :
    seen (.busWrRom 0xFFF8 0x55) (withRom false false) (fun t => (t.rom, t.ram)) =
      some ((withRom false false).rom, []) := by decide
/-- V-BUS-11: a writable image stores. -/
theorem test_busWrRom_writable :
    seen (.busWrRom 0xFFF8 0x55) (withRom true false) (fun t => (t.rom.map RomImage.bytes, t.ram)) =
      some ([[0x55, 0x11, 0x12, 0x13], [0x20, 0x21, 0x22, 0x23, 0x24, 0x25]], []) := by decide
/-- V-BUS-8: truncation leaves 0xFFFA to RAM. -/
theorem test_busRdRom_truncated :
    seen (.busRdRom 0xFFFA false) (withRom false true) State.result = some (.byte 0x00) := by decide
/-- V-PIA-2. -/
theorem test_busRdPortA_mixes :
    seen (.busRdPortA 0xD010 false) (secA 0xAB 0xCD 0xF0 0x00 .fall .fall) State.result = some (.byte 0xAD) := by decide
/-- V-BUS-9: read_only does not keep the flag. -/
theorem test_busRdPortA_readOnly :
    seen (.busRdPortA 0xD010 true) (secA 0x00 0xC1 0x00 0x87 .fall .fall) (fun t => (t.result, t.secA.cr)) =
      some (.byte 0xC1, 0x07) := by decide
/-- P1, line 6. -/
theorem test_busRdCtrlA :
    seen (.busRdCtrlA 0xD011 false) (secA 0 0 0 0xA7 .fall .fall) (fun t => (t.result, t.secA.cr)) =
      some (.byte 0xA7, 0xA7) := by decide
/-- V-PIA-3b. -/
theorem test_busRdPortB :
    seen (.busRdPortB 0xD012 false) (secB 0xAB 0xCD 0x00 0xC0 .fall .fall) (fun t => (t.result, t.secB.cr, t.secA.cr)) =
      some (.byte 0xCD, 0x00, 0x00) := by decide
/-- V-PIA-4, at a mirror. -/
theorem test_busRdCtrlB :
    seen (.busRdCtrlB 0xD01B false) (secB 0 0 0 0x87 .fall .fall) State.result = some (.byte 0x87) := by decide
/-- V-PIA-15. -/
theorem test_busWrOutA :
    seen (.busWrOutA 0xD010 0x11) (secA 0 0 0xFF 0x27 .fall .rise) (fun t => (t.secA.outReg, t.secA.c2, t.trace, t.term.queue)) =
      some (0x11, .rise, [.out .a 0x11], []) := by decide
/-- V-BUS-12. -/
theorem test_busWrDdrA :
    seen (.busWrDdrA 0xD010 0x5A) base (fun t => (t.secA.ddr, t.secA.outReg, t.ram, t.trace)) = some (0x5A, 0x00, [], []) := by
  decide
/-- V-PIA-10. -/
theorem test_busWrCtrlA :
    seen (.busWrCtrlA 0xD011 0xFF) (secA 0 0 0 0x80 .fall .fall) (fun t => (t.secA.cr, t.secA.c2, t.trace)) =
      some (0xBF, .rise, [.lineOut .a .rise, .irq .a]) := by decide
/-- V-PIA-28, the first step. -/
theorem test_busWrCtrlA_masks :
    seen (.busWrCtrlA 0xD011 0x20) (secA 0 0 0 0x48 .fall .fall) (fun t => (t.secA.cr, t.secA.c2, t.trace, t.irqLevel .a)) =
      some (0x60, .fall, [], false) := by decide
/-- V-PIA-12, the write. -/
theorem test_busWrOutB :
    seen (.busWrOutB 0xD012 0xC8) (secB 0 0 0x7F 0x27 .fall .rise)
      (fun t => (t.secB.outReg, t.term.queue, t.secB.c2, t.trace)) =
      some (0xC8, [0x48], .fall, [.out .b 0x48, .lineOut .b .fall]) := by decide
/-- V-PIA-13b. -/
theorem test_busWrOutB_pulse :
    seen (.busWrOutB 0xD012 0x41) (secB 0 0 0x7F 0x2F .fall .fall) (fun t => (t.secB.c2, t.trace)) =
      some (.rise, [.out .b 0x41, .lineOut .b .fall, .lineOut .b .rise]) := by decide
/-- V-RST-4. -/
theorem test_busWrDdrB :
    seen (.busWrDdrB 0xD012 0x41) base (fun t => (t.secB.ddr, t.term.queue)) = some (0x41, []) := by decide
/-- P2, line 8. -/
theorem test_busWrCtrlB :
    seen (.busWrCtrlB 0xD01F 0x04) base (fun t => (t.secB.cr, t.trace)) = some (0x04, []) := by decide
/-- V-BUS-2. -/
theorem test_busRdRam :
    seen (.busRdRam 0x0200 false) { base with ram := [(0x0200, 0x5A)] } State.result = some (.byte 0x5A) := by decide
theorem test_busWrRam :
    seen (.busWrRam 0x0200 0x5A) { base with ram := [(0x0100, 1), (0x0300, 3)] } State.ram =
      some [(0x0100, 1), (0x0200, 0x5A), (0x0300, 3)] := by decide
/-- P2, line 2: storing what an unlisted byte reads as removes the cell (log 23). -/
theorem test_busWrRam_zero :
    seen (.busWrRam 0x0201 0x00) { base with ram := [(0x0201, 9)] } State.ram = some [] := by decide

/-! ## The system driver -/

/-- P2, line 10. -/
theorem test_busClk : seen .busClk base (fun t => (t.cycles, t.trace)) = some (1, [.cpuClock]) := by decide
/-- V-RST-3. -/
theorem test_busRst :
    seen .busRst { terminal [0x42] 1 0 0 0 0x41 with cycles := 77 } (fun t => (t.cycles, t.trace, t.term.queue, t.term.cur.x)) =
      some (0, [.cpuReset], [0x42], 1) := by decide
/-- V-BUS-7a and V-BUS-7b, on a smaller pair of images. -/
theorem test_busRomLow :
    [seen .busRomLow (withRom false false) State.result, seen .busRomLow base State.result] =
      [some (.addr (some 0xFFF6)), some (.addr none)] := by decide
theorem test_busRomHigh :
    [seen .busRomHigh (withRom false false) State.result, seen .busRomHigh (withRom false true) State.result] =
      [some (.addr (some 0xFFFB)), some (.addr (some 0xFFF9))] := by decide
/-- V-BUS-10. -/
theorem test_busPeek :
    seen (.busPeek 0xD010) (secA 0 0xC1 0 0x87 .fall .fall) (fun t => (t.result, t.secA.cr)) = some (.byte 0xC1, 0x87) := by
  decide
theorem test_busPeek_rom : seen (.busPeek 0xFFF7) (withRom false false) State.result = some (.byte 0x21) := by decide
/-- V-SRC-8, on a smaller image. -/
theorem test_romProbeRd :
    [seen (.romProbeRd 1 0xFFFB) (withRom false false) State.result, seen (.romProbeRd 1 0xFFFC) (withRom false false) State.result,
      seen (.romProbeRd 1 0xFFF5) (withRom false false) State.result] =
      [some (.probe (some 0x25)), some (.probe none), some (.probe none)] := by decide
/-- The example of 41_bus.md R112. -/
theorem test_romProbeWr :
    [seen (.romProbeWr 0 0xFFF9 0x55) (withRom false false) State.result, seen (.romProbeWr 0 0xFFF7 0x55) (withRom false false) State.result] =
      [some (.accepted true), some (.accepted false)] := by decide

/-! ## The port side -/

/-- V-PIA-25. -/
theorem test_piaPeek :
    [seen (.piaPeek 0) (secA 0 0xC1 0 0xA7 .fall .fall) State.result, seen (.piaPeek 1) (secA 0 0xC1 0 0xA7 .fall .fall) State.result] =
      [some (.byte 0xC1), some (.byte 0xA7)] := by decide
/-- V-PIA-26. -/
theorem test_piaSetIn :
    seen (.piaSetIn .a 0xC1) (secA 0 0 0 0x83 .fall .fall) (fun t => (t.secA.inReg, t.secA.cr, t.trace)) =
      some (0xC1, 0x83, []) := by decide
/-- V-PIA-29. -/
theorem test_piaSetC1 :
    seen (.piaSetC1 .a .rise) (secA 0 0 0 0x27 .fall .fall) (fun t => (t.secA.cr, t.secA.c2, t.trace)) =
      some (0xA7, .rise, [.irq .a, .lineOut .a .rise]) := by decide
/-- V-PIA-30. -/
theorem test_piaSetC1_pulse :
    seen (.piaSetC1 .b .rise) (secB 0 0 0 0x2F .fall .fall) (fun t => (t.secB.cr, t.secB.c2, t.trace)) =
      some (0xAF, .fall, [.irq .b]) := by decide
/-- V-PIA-21. -/
theorem test_piaSetC2 :
    seen (.piaSetC2 .b .rise) (secB 0 0 0 0x18 .fall .fall) (fun t => (t.secB.cr, t.secB.c2, t.trace)) =
      some (0x58, .rise, [.irq .b]) := by decide
/-- V-PIA-23. -/
theorem test_piaSetC2_output :
    seen (.piaSetC2 .a .rise) (secA 0 0 0 0x27 .fall .fall) (fun t => (t.secA.cr, t.secA.c2, t.trace)) =
      some (0x27, .rise, []) := by decide

/-! ## The terminal -/

/-- The example of 42_terminal.md R130. -/
theorem test_termEnq : seen (.termEnq 0x45) (terminal [0x48] 0 0 0 0 0x20) (fun t => t.term.queue) = some [0x48, 0x45] := by
  decide
/-- V-TERM-2. -/
theorem test_termStep :
    seen .termStep (terminal [0x48] 0 0 0 0 0x20)
      (fun t => (cellAt t.term.grid 0 0, t.term.cur.x, t.surfacePixel 0 0 3 3, t.surfacePixel 0 1 3 3, t.surfacePixel 0 2 3 3)) =
      some (0x48, 1, true, true, false) := by decide
/-- V-TERM-5. -/
theorem test_termStep_scrolls :
    seen .termStep (terminal [0x5A] 39 23 1 0 0x42)
      (fun t => (cellAt t.term.grid 0 0, cellAt t.term.grid 22 39, cellAt t.term.grid 23 0, t.term.cur,
        t.surfacePixel 23 0 7 7, t.surfacePixel 23 1 0 0)) =
      some (0x42, 0x5A, 0x20, ⟨0, 23⟩, true, false) := by decide
/-- V-TERM-3. -/
theorem test_termDrain :
    seen .termDrain (terminal [0x68, 0x69] 0 0 0 0 0x20)
      (fun t => (cellAt t.term.grid 0 0, cellAt t.term.grid 0 1, t.term.cur.x, t.term.queue)) =
      some (0x48, 0x49, 2, []) := by decide
/-- V-TERM-8, the clear. -/
theorem test_termClear :
    seen .termClear (terminal [0x42, 0x43] 1 0 0 0 0x41) (fun t => (cellAt t.term.grid 0 0, t.term.cur.x, t.term.queue)) =
      some (0x20, 0, [0x42, 0x43]) := by decide

/-! ## The keyboard -/

/-- V-KEY-1. -/
theorem test_keyDown :
    seen (.keyDown 1 false) (secA 0 0 0 0x27 .fall .fall) (fun t => (t.secA.inReg, t.secA.cr, t.secA.c1, t.secA.c2, t.trace)) =
      some (0xC1, 0xA7, .fall, .rise, [.irq .a, .lineOut .a .rise]) := by decide
/-- V-KEY-7. -/
theorem test_keyDown_falling :
    seen (.keyDown 1 false) (secA 0 0 0 0x05 .rise .fall) (fun t => (t.secA.inReg, t.secA.cr, t.trace)) =
      some (0xC1, 0x85, [.irq .a, .irq .a]) := by decide
/-- V-KEY-8: K_Z is in no table, K_GRAVE is out of range. -/
theorem test_keyBatch :
    seen (.keyBatch [⟨9, false⟩, ⟨3, false⟩, ⟨1, false⟩, ⟨2, false⟩]) (secA 0 0 0 0x27 .fall .fall)
      (fun t => (t.secA.inReg, t.secA.cr, t.trace)) = some (0xC1, 0xA7, [.irq .a, .lineOut .a .rise]) := by decide

/-! ## Agents -/

/-- The kind column of 30_encoding.md R70 and the agents of 00_scope.md R10. -/
theorem test_issuerOf :
    [Instr.romProbeRd 0 0, .romProbeWr 0 0 0, .piaPeek 0, .termEnq 0].map issuerOf = [none, none, none, none] ∧
      [Instr.busRdRam 0 false, .busPeek 0, .sysReset, .piaSetC2 .a .rise, .termDrain, .keyBatch []].map issuerOf =
        [some .busMaster, some .systemDriver, some .systemDriver, some .portSide, some .renderLoop, some .keySource] := by
  decide

/-! ## Resets -/

/-- V-RST-1, from a machine that had run. -/
theorem test_sysPowerOn :
    seen .sysPowerOn { secA 1 2 3 0xA7 .rise .rise with ram := [(7, 7)], cycles := 5, trace := [.cpuClock] }
      (fun t => (t.secA, t.ram, t.cycles, t.trace)) = some (⟨0, 0, 0, 0, .fall, .fall⟩, [], 0, []) := by decide
/-- V-RST-2. -/
theorem test_sysReset :
    seen .sysReset { terminal [0x42] 1 0 0 0 0x41 with ram := [(0x0200, 0x5A)], cycles := 77, trace := [.irq .a] }
      (fun t => (t.ram, cellAt t.term.grid 0 0, t.term.queue, t.cycles, t.trace)) =
      some ([(0x0200, 0x5A)], 0x20, [], 0, [.irq .a, .cpuReset]) := by decide

/-! ## Witnesses: for each statement with hypotheses, operands and a state that meet all of them, clause by clause -/

theorem witness_DecodeOfEncodeIsTheOperation :
    (Instr.keyBatch [⟨0xFFFF, true⟩]).wellFormed = true ∧ (Instr.busWrDdrB 0xD01E 0xFF).wellFormed = true := by decide
theorem witness_DecodedBytesAreTheEncodedRecord :
    decode [0x1F, 0xD0, 0x00, 0x01, 0x00, 0x00, 0x77] = .ok (.busRdCtrlB 0xD01F true) [0x77] := by decide
theorem witness_WindowRowsAreTheTablesMatchAndMask :
    (windowRow 0xD010 0 = true ∧ windowRow 0xD01F 3 = true) ∧ inWindow 0xD00F = false ∧ inWindow 0xD020 = false := by decide
theorem witness_StepRunsThePendingOperation :
    decode { base with pending := [0, 0, 0x05, 0, 0, 0] }.pending = .ok .busClk [] ∧ base.pending = [] ∧
      ({ base with pending := [0] }.pending ≠ [] ∧ decode { base with pending := [0] }.pending = .reject .truncated) := by
  decide

/-- What the agents issued, and a step of it. -/
theorem witness_StepRunsThePendingOperation_agents :
    { base with pending := encode .busClk ++ encode (.busRdPortA 0xD010 true) }.issuedByAgents ∧
      ∃ t, step { base with pending := encode .busClk ++ encode (.busRdPortA 0xD010 true) } = .next t :=
  ⟨⟨[.busClk, .busRdPortA 0xD010 true], rfl, by decide⟩, _, rfl⟩

/-- A state with an operation pending that meets the invariant. -/
def running : State := { withRom true false with pending := [0x00, 0x02, 0x01, 0x5A, 0x00, 0x00], ram := [(0x0300, 3)] }

theorem witness_StepKeepsTheInvariant : ∃ t, running.Inv ∧ step running = .next t := by
  refine ⟨_, ⟨by decide, by decide, by decide, by decide, by decide, ?_, ?_⟩, rfl⟩
  · intro y x
    show printable (cellAt (Vector.replicate gridRows (Vector.replicate gridCols spaceCode)) y x) = true
    simp [cellAt]; decide
  · intro n h; cases h
theorem witness_EveryOperationAnswersANextState : configValid (withRom false false).cfg = true := by decide
theorem witness_BusReadOfAClaimedAddressGivesTheFirstImagesByte :
    Instr.busRdRom 0xFFFB false ∈ busReadRows 0xFFFB false ∧ (withRom false false).rom = [] ++ (withRom false false).rom ∧
      (∀ j ∈ ([] : List RomImage), claims false j 0xFFFB = false) ∧
      claims false { base := 0xFFF8, bytes := [0x10, 0x11, 0x12, 0x13] } 0xFFFB = true ∧
      (∀ j ∈ (withRom false false).rom.take 1, claims false j 0xFFF7 = false) ∧
      claims false { base := 0xFFF6, bytes := [0x20, 0x21, 0x22, 0x23, 0x24, 0x25] } 0xFFF7 = true := by decide
theorem witness_DataPortReadClearsBothFlagsAndReturnsThePort :
    (Instr.busRdPortA 0xD010 true ∈ busReadRows 0xD010 true ∧ (secA 1 2 0x00 0xC7 .rise .fall).reachesPia 0xD010 (dataSel .a)) ∧
      (Instr.busRdPortB 0xD01E false ∈ busReadRows 0xD01E false ∧
        (secB 1 2 0xFF 0xC7 .rise .fall).reachesPia 0xD01E (dataSel .b)) :=
  ⟨⟨by decide, by decide, by decide⟩, by decide, by decide, by decide⟩
theorem witness_ControlRegisterReadIsVerbatimAndChangesNothing :
    (Instr.busRdCtrlA 0xD011 false ∈ busReadRows 0xD011 false ∧ base.reachesPia 0xD011 (controlSel .a)) ∧
      (Instr.busRdCtrlB 0xD01F false ∈ busReadRows 0xD01F false ∧ base.reachesPia 0xD01F (controlSel .b)) :=
  ⟨⟨by decide, by decide, by decide⟩, by decide, by decide, by decide⟩
theorem witness_RamReadReturnsTheByteAndChangesNothing :
    (Instr.busRdRam 0xFFFF false ∈ busReadRows 0xFFFF false ∧ base.reachesRam 0xFFFF) ∧
      (Instr.busRdRam 0xD00F false ∈ busReadRows 0xD00F false ∧ base.reachesRam 0xD00F) :=
  ⟨⟨by decide, by decide, by decide⟩, by decide, by decide, by decide⟩
theorem witness_PeeksGiveTheByteAReadWouldGiveAndChangeNothing : Instr.busRdRam 0x1234 true ∈ busReadRows 0x1234 true := by
  decide
theorem witness_BusWriteOfAClaimedAddressStopsAtTheFirstImage :
    Instr.busWrRom 0xFFF7 9 ∈ busWriteRows 0xFFF7 9 ∧
      (withRom true false).rom = (withRom true false).rom.take 1 ++ (withRom true false).rom.drop 1 ∧
      (∀ j ∈ (withRom true false).rom.take 1, claims false j 0xFFF7 = false) ∧
      (∀ j ∈ (withRom true false).rom.drop 1, claims false j 0xFFF7 = true) ∧
      (withRom true false).cfg.romWritable = true ∧ (withRom false false).cfg.romWritable = false := by decide
theorem witness_DataWriteOutsidePortModeSetsTheDirectionRegister :
    Instr.busWrDdrA 0xD01C 9 ∈ busWriteRows 0xD01C 9 ∧ base.reachesPia 0xD01C (dataSel .a) ∧
      (base.cfgOf .a).portMode = false :=
  ⟨by decide, ⟨by decide, by decide⟩, by decide⟩
theorem witness_PortAWriteLatchesAndInvokesItsCallback :
    Instr.busWrOutA 0xD010 9 ∈ busWriteRows 0xD010 9 ∧ (secA 0 0 0xFF 0x04 .fall .fall).reachesPia 0xD010 0 ∧
      ((secA 0 0 0xFF 0x04 .fall .fall).cfgOf .a).portMode = true :=
  ⟨by decide, ⟨by decide, by decide⟩, by decide⟩
theorem witness_PortBWriteLatchesQueuesAndMovesCb2 :
    Instr.busWrOutB 0xD012 0xC1 ∈ busWriteRows 0xD012 0xC1 ∧ (secB 0 0 0x7F 0x27 .fall .rise).reachesPia 0xD012 2 ∧
      ((secB 0 0 0x7F 0x27 .fall .rise).cfgOf .b).portMode = true ∧
      (0x41 : Byte) = (0xC1 &&& 0x7F) ||| (0x00 &&& ~~~0x7F) ∧ (secB 0 0 0x7F 0x27 .fall .rise).queueHasRoom :=
  ⟨by decide, ⟨by decide, by decide⟩, by decide, by decide, fun _ h => by cases h⟩
theorem witness_ControlWriteStoresDrivesAndEvaluates :
    Instr.busWrCtrlB 0xD013 0xFF ∈ busWriteRows 0xD013 0xFF ∧ base.reachesPia 0xD013 (controlSel .b) ∧
      (0x3F : Byte) = ((base.sec .b).cr &&& 0xC0) ||| (0xFF &&& 0x3F) ∧
      standardCfg 0x3F = decodeCfg base.cfg.cfgLayout 0x3F :=
  ⟨by decide, ⟨by decide, by decide⟩, by decide, by decide⟩
theorem witness_ControlWriteStoresSixBitsAndKeepsTheFlags :
    Instr.busWrCtrlA 0xD01D 0xFF ∈ busWriteRows 0xD01D 0xFF ∧ base.reachesPia 0xD01D (controlSel .a) :=
  ⟨by decide, by decide, by decide⟩
theorem witness_RamWriteStoresOneByteAndReadsBack :
    Instr.busWrRam 0xD020 9 ∈ busWriteRows 0xD020 9 ∧ Instr.busRdRam 0xD020 false ∈ busReadRows 0xD020 false ∧
      running.reachesRam 0xD020 ∧ Memory.wf running.ram = true ∧ (0x0000 : Addr) ≠ 0xD020 :=
  ⟨by decide, by decide, ⟨by decide, by decide⟩, by decide, by decide⟩
theorem witness_RomLowAndHighAreTheExtremeClaimedAddresses :
    ((withRom false true).rom.all imageValid = true ∧ (withRom false true).romClaims 0xFFF6 = true ∧
      (withRom false true).romClaims 0xFFF9 = true ∧ (withRom false true).romClaims 0xFFFA = false) ∧
      base.rom.all imageValid = true := by decide
theorem witness_ProbeReadGivesTheImagesByteOrNotMine :
    (withRom false false).rom[1]? = some { base := 0xFFF6, bytes := [0x20, 0x21, 0x22, 0x23, 0x24, 0x25] } ∧
      claims false { base := 0xFFF6, bytes := [0x20, 0x21, 0x22, 0x23, 0x24, 0x25] } 0xFFFB = true ∧
      claims false { base := 0xFFF6, bytes := [0x20, 0x21, 0x22, 0x23, 0x24, 0x25] } 0xFFFC = false := by decide
theorem witness_ProbeWriteIsAcceptedWhereClaimed :
    (withRom true false).rom[0]? = some { base := 0xFFF8, bytes := [0x10, 0x11, 0x12, 0x13] } ∧
      claims false { base := 0xFFF8, bytes := [0x10, 0x11, 0x12, 0x13] } 0xFFF8 = true ∧
      claims false { base := 0xFFF8, bytes := [0x10, 0x11, 0x12, 0x13] } 0xFFF7 = false ∧
      (withRom true false).cfg.romWritable = true ∧ (withRom false false).cfg.romWritable = false ∧
      (withRom true false).rom[2]? = none := by decide
theorem witness_ActiveLine1TransitionSetsFlag1AndRaisesLine2InHandshake :
    let s := secA 0 0 0 0x27 .fall .fall
    Signal.rise ≠ (s.sec .a).c1 ∧ Signal.rise = (s.cfgOf .a).c1Edge := by decide
theorem witness_ActiveLine2TransitionSetsFlag2 :
    let s := secB 0 0 0 0x18 .fall .fall
    (s.cfgOf .b).c2Mode = .input .rise true ∧ Signal.rise ≠ (s.sec .b).c2 := by decide
theorem witness_InactiveLineAssignmentsMoveTheLineOnly :
    (Signal.fall = (base.sec .a).c1 ∧ Signal.rise ≠ (base.cfgOf .a).c1Edge) ∧ Signal.fall = (base.sec .a).c2 ∧
      ∀ enabled, ((secA 0 0 0 0x27 .fall .fall).cfgOf .a).c2Mode ≠ .input .rise enabled := by decide
theorem witness_EnqueueAppendsAtTheBackOnly :
    let s := { terminal [1] 0 0 0 0 0x20 with cfg := { testCfg with queueCap := some 2 } }
    s.queueHasRoom ∧ s.cfg.queueCap = some 2 ∧ s.term.queue.length ≤ 2 :=
  ⟨fun _ h => by cases h; decide, rfl, by decide⟩
theorem witness_StepAndDrainOfAnEmptyQueueDoNothing : base.term.queue = [] := rfl
theorem witness_StepStoresAPrintableByteAndAdvances :
    let s := terminal [0x7A, 1] 38 22 0 0 0x20
    let s' := terminal [0x20] 39 22 0 0 0x20
    (s.term.queue = 0x7A :: [1] ∧ 0x20 ≤ (foldByte 0x7A).toNat ∧ (foldByte 0x7A).toNat ≤ 0x5F ∧
      ((39 : Fin gridCols).val = s.term.cur.x.val + 1 ∧ (22 : Fin gridRows) = s.term.cur.y)) ∧
    (s'.term.queue = 0x20 :: [] ∧ 0x20 ≤ (foldByte 0x20).toNat ∧ (foldByte 0x20).toNat ≤ 0x5F ∧
      (s'.term.cur.x.val = 39 ∧ (0 : Fin gridCols).val = 0 ∧ (23 : Fin gridRows).val = s'.term.cur.y.val + 1)) := by decide
theorem witness_StepTakesACarriageReturn :
    let s := terminal [0x0D, 2] 5 22 0 0 0x20
    s.term.queue = 0x0D :: [2] ∧ (23 : Fin gridRows).val = s.term.cur.y.val + 1 := by decide
theorem witness_StepIgnoresOtherBytes :
    let s := terminal [0x60] 39 23 0 0 0x20
    s.term.queue = 0x60 :: [] ∧ foldByte 0x60 ≠ 0x0D ∧ ¬(0x20 ≤ (foldByte 0x60).toNat ∧ (foldByte 0x60).toNat ≤ 0x5F) := by
  decide
theorem witness_StepScrollsOnTheLastRow :
    let s := terminal [0x0D] 5 23 0 0 0x20
    let s' := terminal [0x5F] 39 23 0 0 0x20
    (s.term.queue = 0x0D :: [] ∧ s.term.cur.y.val = 23 ∧ foldByte 0x0D = 0x0D) ∧
    (s'.term.queue = 0x5F :: [] ∧ s'.term.cur.y.val = 23 ∧ 0x20 ≤ (foldByte 0x5F).toNat ∧ (foldByte 0x5F).toNat ≤ 0x5F ∧
      s'.term.cur.x.val = 39) := by decide
theorem witness_DrainIsStepsUntilTheQueueIsEmpty : (terminal [0x41] 0 0 0 0 0x20).term.queue ≠ [] := by decide
theorem witness_TerminalStepCommutesWithTheOtherOperations :
    let s := { terminal [0x41] 0 0 0 0 0x20 with secB := { base.secB with cr := 0x27 } }
    (s.cfg.queueCap = none ∧ s.term.queue ≠ [] ∧ ∃ t, exec .termStep s = .next t) ∧
      (isTerminalOp (.busWrOutB 0xD012 0x42) = false ∧ ∃ u, exec (.busWrOutB 0xD012 0x42) s = .next u) ∧
      (isTerminalOp .sysReset = false ∧ ∃ u, exec .sysReset s = .next u) ∧
      isTerminalOp .sysPowerOn = false ∧ ∃ u, exec .sysPowerOn s = .next u :=
  ⟨⟨rfl, by decide, _, rfl⟩, ⟨rfl, _, rfl⟩, ⟨rfl, _, rfl⟩, rfl, _, rfl⟩
theorem witness_TerminalAndTheRestAreSeparate :
    (∃ t, exec .termClear base = .next t ∧ isTerminalOp .termClear = true) ∧
      (∃ t, exec .busClk base = .next t ∧ isTerminalOp .busClk = false ∧ isSystemReset .busClk = false) ∧
      (∃ t, exec (.termEnq 7) base = .next t) ∧
      ∃ t, exec (.busWrOutB 0xD012 0x41) (secB 0 0 0x7F 0x04 .fall .fall) = .next t ∧
        (issuerOf (.busWrOutB 0xD012 0x41)).isSome = true ∧ Instr.busWrOutB 0xD012 0x41 ≠ .sysPowerOn ∧
        (secB 0 0 0x7F 0x04 .fall .fall).cfg.queueCap = none ∧ t.term.queue = [0x41] :=
  ⟨⟨_, rfl, rfl⟩, ⟨_, rfl, rfl, rfl⟩, ⟨_, rfl⟩, _, rfl, rfl, by decide, rfl, by decide⟩
theorem witness_KeyDownIsTheStrobeSequenceOrNothing :
    (base.cfg.keymapUnshifted.lookup 4 = some 0x5F ∧ 0x01 ≤ (0x5F : Byte).toNat ∧ (0x5F : Byte).toNat ≤ 0x5F) ∧
      (base.cfg.keymapUnshifted.lookup 3 = some 0x60 ∧ ¬(0x01 ≤ (0x60 : Byte).toNat ∧ (0x60 : Byte).toNat ≤ 0x5F)) ∧
      base.cfg.keymapShifted.lookup 1 = none := by decide
theorem witness_AcceptedKeyLatchesItsCodeAndSetsFlag1 :
    let s := secA 0 0 0 0x27 .fall .fall
    acceptedCode s.cfg 1 false = some 0x41 ∧
      [Event.irq .a, .lineOut .a .rise] =
        (if irqLevelOf (s.cfgOf .a) (s.secA.cr ||| 0x80) then requestEvents s.cfg.irqRouting .a else []) ++
          (if (s.cfgOf .a).c2Mode = .handshake then [.lineOut .a .rise] else []) := by decide
/-- The falling active edge, from CA1 high. -/
theorem witness_AcceptedKeyLatchesItsCodeAndSetsFlag1_falling :
    let s := secA 0 0 0 0x25 .rise .fall
    acceptedCode s.cfg 1 false = some 0x41 ∧ (s.cfgOf .a).c1Edge = .fall ∧ s.secA.c1 = .rise ∧
      [Event.irq .a, .lineOut .a .rise] =
        (if irqLevelOf (s.cfgOf .a) (s.secA.cr ||| 0x80) then requestEvents s.cfg.irqRouting .a else []) ++
          (if (s.cfgOf .a).c2Mode = .handshake then [.lineOut .a .rise] else []) := by decide
theorem witness_KeyBatchIsItsFirstMatchingKey :
    (∀ d ∈ [KeyEvent.mk 9 false, KeyEvent.mk 3 false], acceptedCode base.cfg d.key d.shift = none) ∧
      (acceptedCode base.cfg 1 false).isSome = true := by decide
theorem witness_SecondKeyOverwritesAnUnreadKey :
    acceptedCode base.cfg 1 false = some 0x41 ∧ acceptedCode base.cfg 2 true = some 0x21 ∧
      Instr.busRdPortA 0xD010 false ∈ busReadRows 0xD010 false ∧ base.reachesPia 0xD010 0 :=
  ⟨by decide, by decide, by decide, by decide, by decide⟩
theorem witness_PowerOnEstablishesTheResetValues :
    configValid (withRom false false).cfg = true ∧
      configValid { testCfg with romImages := [{ base := 0xFFFF, bytes := [1, 2] }] } = false := by decide
theorem witness_FlagsAreClearedOnlyByADataPortReadOrReset :
    let s := secB 0 0 0 0xC0 .fall .fall
    ∃ t, exec (.busRdPortB 0xD012 false) s = .next t ∧ flag1 (s.sec .b).cr = true ∧ flag1 (t.sec .b).cr = false ∧
      flag2 (s.sec .b).cr = true ∧ flag2 (t.sec .b).cr = false :=
  ⟨_, rfl, by decide, by decide, by decide, by decide⟩
theorem witness_FlagsAreSetOnlyByAMatchingTransition :
    let s := secA 0 0 0 0x1A .fall .fall
    (∃ t, exec (.piaSetC1 .a .rise) s = .next t ∧ flag1 (s.sec .a).cr = false ∧ flag1 (t.sec .a).cr = true) ∧
      (∃ t, exec (.keyDown 1 false) s = .next t ∧ flag1 (s.sec .a).cr = false ∧ flag1 (t.sec .a).cr = true) ∧
      ∃ t, exec (.piaSetC2 .a .rise) s = .next t ∧ flag2 (s.sec .a).cr = false ∧ flag2 (t.sec .a).cr = true :=
  ⟨⟨_, rfl, by decide, by decide⟩, ⟨_, rfl, by decide, by decide⟩, _, rfl, by decide, by decide⟩
theorem witness_RegistersAreWrittenOnlyByTheirOwnOperations :
    let s := secA 0 0 0 0x04 .fall .fall
    isSystemReset (.busWrOutA 0xD010 1) = false ∧
      (∃ t, exec (.busWrOutA 0xD010 1) s = .next t ∧ (t.sec .a).outReg ≠ (s.sec .a).outReg) ∧
      (∃ t, exec (.busWrDdrB 0xD012 1) s = .next t ∧ (t.sec .b).ddr ≠ (s.sec .b).ddr) ∧
      (∃ t, exec (.busWrCtrlA 0xD011 1) s = .next t ∧ (t.sec .a).cr &&& 0x3F ≠ (s.sec .a).cr &&& 0x3F) ∧
      (∃ t, exec (.piaSetIn .b 1) s = .next t ∧ (t.sec .b).inReg ≠ (s.sec .b).inReg) ∧
      ∃ t, exec (.piaSetC1 .b .rise) s = .next t ∧ (t.sec .b).c1 ≠ (s.sec .b).c1 :=
  ⟨rfl, ⟨_, rfl, by decide⟩, ⟨_, rfl, by decide⟩, ⟨_, rfl, by decide⟩, ⟨_, rfl, by decide⟩, _, rfl, by decide⟩
theorem witness_ControlLine2MovesOnlyAsConfigured :
    let s := secB 0 0 0 0x27 .fall .rise
    (∃ t, exec (.busWrOutB 0xD012 1) s = .next t ∧ isSystemReset (.busWrOutB 0xD012 1) = false ∧ (t.sec .b).c2 ≠ (s.sec .b).c2) ∧
      (∃ t, exec (.busWrCtrlB 0xD013 0x37) s = .next t ∧ (t.sec .b).c2 ≠ (s.sec .b).c2) ∧
      (∃ t, exec (.piaSetC2 .b .fall) s = .next t ∧ (t.sec .b).c2 ≠ (s.sec .b).c2) ∧
      ∃ t, exec (.keyDown 1 false) (secA 0 0 0 0x27 .fall .fall) = .next t ∧ (t.sec .a).c2 ≠ .fall :=
  ⟨⟨_, rfl, by decide, by decide⟩, ⟨_, rfl, by decide⟩, ⟨_, rfl, by decide⟩, _, rfl, by decide⟩
theorem witness_TheCounterCountsClocksSinceReset :
    (∃ t, exec .busClk base = .next t) ∧ (∃ t, exec .sysReset base = .next t) ∧ ∃ t, exec .termStep base = .next t :=
  ⟨⟨_, rfl⟩, ⟨_, rfl⟩, _, rfl⟩
theorem witness_AnIrqEventMeansTheLevelHolds :
    let s := secA 0 0 0 0x80 .fall .fall
    ∃ t, exec (.busWrCtrlA 0xD011 0x01) s = .next t ∧ t.trace = s.trace ++ [.irq .a] ∧ Event.irq .a ∈ [Event.irq .a] :=
  ⟨_, rfl, by decide, by decide⟩
theorem witness_TheTraceOnlyGrows : ∃ t, exec .busClk base = .next t ∧ Instr.busClk ≠ .sysPowerOn := ⟨_, rfl, by decide⟩
theorem witness_TablesAndImageShapesNeverChange :
    (∃ t, exec (.busWrRom 0xFFF8 0x55) (withRom true false) = .next t ∧ Instr.busWrRom 0xFFF8 0x55 ≠ .sysPowerOn ∧
      t.rom ≠ (withRom true false).rom) ∧ ∃ t, exec .sysPowerOn base = .next t :=
  ⟨⟨_, rfl, by decide, by decide⟩, _, rfl⟩
theorem witness_RamChangesOnlyAtTheAddressWritten :
    ∃ t, exec (.busWrRam 0x0200 1) base = .next t ∧ Instr.busWrRam 0x0200 1 ≠ .sysPowerOn ∧
      ∀ data, Instr.busWrRam 0x0200 1 ∈ busWriteRows 0x0201 data → ¬base.reachesRam 0x0201 := by
  refine ⟨_, rfl, by decide, fun data h => ?_⟩
  simp [busWriteRows] at h
theorem witness_ShadowedRamIsNeverObserved :
    let s := { base with ram := [(0xD010, 1), (0xFFFF, 2)] }
    let t := { base with ram := [(0xD01F, 3), (0xFFFF, 2)] }
    ∃ s', Memory.wf s.ram = true ∧ Memory.wf t.ram = true ∧ AgreeOffShadow s t ∧ exec (.busRdRam 0xFFFF false) s = .next s' := by
  refine ⟨_, by decide, by decide, ⟨rfl, fun addr h => ?_⟩, rfl⟩
  have h1 : addr.toNat ≠ 0xD010 := fun e => by
    have : addr = 0xD010 := BitVec.eq_of_toNat_eq e
    subst this; exact absurd h.2 (by decide)
  have h2 : addr.toNat ≠ 0xD01F := fun e => by
    have : addr = 0xD01F := BitVec.eq_of_toNat_eq e
    subst this; exact absurd h.2 (by decide)
  simp [State.ramByte, Memory.read, h1.symm, h2.symm]
theorem witness_LoadedGlyphsReverseTheFilesBits :
    8 * (0xFF : Byte).toNat + (7 : Fin glyphRows).val < glyphCount * glyphRows := by decide

end Sys2Proof.Tests
end

section
/-! PROOF. A control-register write stores the six configuration bits and keeps the two flag bits (30_encoding.md R75). -/

namespace Sys2Proof.Machine

variable (s : State) (k : Section) (cr data : Byte)

/-- The configuration bits of a written control register are those of the data. -/
theorem writeConfig_getLsbD_config {j : Nat} (h : j < 6) : (writeConfig cr data).getLsbD j = data.getLsbD j := by
  have hflag : flagMask.getLsbD j = false := by decide +revert
  have hconf : configMask.getLsbD j = true := by decide +revert
  simp [writeConfig, hflag, hconf]

/-- The flag bits of a written control register are the old ones. -/
theorem writeConfig_getLsbD_flags {j : Nat} (h : 6 ≤ j) : (writeConfig cr data).getLsbD j = cr.getLsbD j := by
  by_cases hj : j < 8
  · obtain rfl | rfl : j = 6 ∨ j = 7 := by omega
    · rw [← flag2_eq, flag2_writeConfig, flag2_eq]
    · rw [← flag1_eq, flag1_writeConfig, flag1_eq]
  · rw [BitVec.getLsbD_of_ge _ _ (not_lt.1 hj), BitVec.getLsbD_of_ge _ _ (not_lt.1 hj)]

/-- The configuration of a written control register is the six bits written. -/
theorem writeConfig_config : (writeConfig cr data).setWidth 6 = data.setWidth 6 := by
  refine BitVec.eq_of_getLsbD_eq fun j hj => ?_
  simp [hj, writeConfig_getLsbD_config]

/-- A control-register write stores what `writeConfig` makes of the old register and the data (40_pia.md R97). -/
theorem piaWriteControl_cr : ((piaWriteControl k data s).sec k).cr = writeConfig (s.sec k).cr data := by
  rw [piaWriteControl_spec]; cases k <;> rfl

/-- After a control-register write the section is configured by the data alone. -/
theorem piaWriteControl_cfgOf : (piaWriteControl k data s).cfgOf k = decodeCfg s.cfg.cfgLayout data := by
  have hcfg : (piaWriteControl k data s).cfg = s.cfg := by rw [piaWriteControl_spec]; simp
  rw [State.cfgOf, hcfg, piaWriteControl_cr]
  exact decodeCfg_congr _ (writeConfig_config _ _)

/-- A bus write that reaches a section's control register is the control-register write. -/
theorem exec_busWriteRows_control {addr : Addr} {data : Byte} {i : Instr} {k : Section} (hi : i ∈ busWriteRows addr data)
    (hr : s.reachesPia addr (controlSel k)) : exec i s = .next ((piaWriteControl k data s).give .nothing) := by
  rw [exec_busWriteRows s addr hi, busWrite_of_pia s addr hr]
  simp [piaWrite]

end Sys2Proof.Machine

open Sys2Proof.Machine in
/-- Settles O20: bit by bit, the masks of `writeConfig` select the data below bit 6 and the old register from bit 6 on. -/
theorem controlWriteStoresSixBitsAndKeepsTheFlags : Obligations.ControlWriteStoresSixBitsAndKeepsTheFlags := by
  intro s addr data i k hi hr
  have hcr : (((piaWriteControl k data s).give .nothing).sec k).cr = writeConfig (s.sec k).cr data := by
    rw [State.give_sec, piaWriteControl_cr]
  refine ⟨_, exec_busWriteRows_control s hi hr, hcr, fun j hj => ?_, fun j hj => ?_, ?_⟩
  · rw [hcr, writeConfig_getLsbD_config _ _ hj]
  · rw [hcr, writeConfig_getLsbD_flags _ _ hj]
  · rw [State.give_cfgOf, piaWriteControl_cfgOf, decodeCfg]

end

section
/-! PROOF. An input byte pushed into a section is latched and does nothing else; the port shows it on the input lines
(40_pia.md R98). -/

namespace Sys2Proof.Machine

variable (s : State) (k : Section)

/-- An input line of the port shows the input register. -/
theorem portOf_getLsbD_input (outReg inReg : Byte) {ddr : Byte} {j : Nat} (hj : j < 8) (hd : ddr.getLsbD j = false) :
    (portOf outReg inReg ddr).getLsbD j = inReg.getLsbD j := by
  simp [portOf, hj, hd, -BitVec.getLsbD_eq_getElem]

/-- A push replaces what an earlier push left. -/
theorem setIn_setIn (v w : Byte) : setIn k w (setIn k v s) = setIn k w s := by
  simp [setIn]

/-- A push passes by the result of the operation before. -/
theorem setIn_give (w : Byte) (r : Result) : setIn k w (s.give r) = (setIn k w s).give r := by
  cases k <;> rfl

/-- The port after a push is made of the byte pushed and the other registers as they were. -/
theorem setIn_port (v : Byte) : (setIn k v s).port k = portOf (s.sec k).outReg v (s.sec k).ddr :=
  State.port_setSec_same s k _

theorem exec_piaSetIn (v : Byte) : exec (.piaSetIn k v) s = .next ((setIn k v s).give .nothing) := rfl

end Sys2Proof.Machine

open Sys2Proof.Machine in
/-- Settles O28: the operation is one replacement of the input register, which the next push replaces again. -/
theorem setInLatchesTheInputRegisterOnly : Obligations.SetInLatchesTheInputRegisterOnly := by
  intro s k v
  refine ⟨_, exec_piaSetIn s k v, rfl, fun j hj hd => ?_, fun w => ?_⟩
  · rw [State.give_port, setIn_port, portOf_getLsbD_input _ _ hj hd]
  · rw [exec_piaSetIn, exec_piaSetIn, setIn_give, State.give_give, setIn_setIn]

end

section
/-! PROOF. A bus read of a control register gives the register as it stands (40_pia.md R93). -/

open Sys2Proof.Machine in
/-- Settles O12: every row of the access is the bus read, which at a control selector only gives the register. -/
theorem controlRegisterReadIsVerbatimAndChangesNothing : Obligations.ControlRegisterReadIsVerbatimAndChangesNothing := by
  intro s addr readOnly i k hi hr
  calc exec i s
    _ = .next (busRead addr s) := exec_busReadRows s addr hi
    _ = .next (piaRead (controlSel k) s) := by rw [busRead_of_pia s addr hr]
    _ = .next (s.give (.byte (s.sec k).cr)) := by rw [piaRead_controlSel]

end

section
/-! PROOF. The bus's reset resets the CPU engine and zeroes the counter (41_bus.md R116). -/

namespace Sys2Proof.Machine

variable (s : State)

/-- What the bus's reset leaves: the event of the CPU's reset at the end of the trace and a counter of 0. -/
theorem busReset_eq : busReset s = { s with cycles := 0, trace := s.trace ++ [.cpuReset] } := rfl

theorem exec_busRst : exec .busRst s = .next ((busReset s).give .nothing) := rfl

end Sys2Proof.Machine

open Sys2Proof.Machine in
/-- Settles O23: the operation is the bus's reset, which assigns the trace and the counter, and a result of nothing. -/
theorem busRstResetsTheCpuAndTheCounterOnly : Obligations.BusRstResetsTheCpuAndTheCounterOnly := by
  intro s
  rw [exec_busRst, busReset_eq, State.give]

end

section
/-! PROOF. The records of operations: decoding and encoding undo each other (30_encoding.md section 6, log 1), and what a
step makes of the records the agents issued (00_scope.md R13, log 27). -/

namespace Sys2Proof

open Sys2Proof.Machine

/-! ## The rows of a bus access -/

variable {addr : Addr} {k : Section}

/-- A read row of a data register is the section's port row. -/
theorem busRdRow_data (readOnly : Bool) (h : windowRow addr (dataSel k) = true) :
    busRdRow addr readOnly = k.rec (.busRdPortA addr readOnly) (.busRdPortB addr readOnly) := by
  obtain ⟨hw, hs⟩ := (windowRow_iff _ _).1 h
  cases k <;> simp [busRdRow, hw, hs]

/-- A read row of a control register is the section's control row. -/
theorem busRdRow_control (readOnly : Bool) (h : windowRow addr (controlSel k) = true) :
    busRdRow addr readOnly = k.rec (.busRdCtrlA addr readOnly) (.busRdCtrlB addr readOnly) := by
  obtain ⟨hw, hs⟩ := (windowRow_iff _ _).1 h
  cases k <;> simp [busRdRow, hw, hs]

/-- A read row outside the window is the RAM row. -/
theorem busRdRow_ram (readOnly : Bool) (h : inWindow addr = false) : busRdRow addr readOnly = .busRdRam addr readOnly := by
  simp [busRdRow, h]

/-- A write row of a data register is the section's output row. -/
theorem busWrRow_data (data : Byte) (h : windowRow addr (dataSel k) = true) :
    busWrRow addr data = k.rec (.busWrOutA addr data) (.busWrOutB addr data) := by
  obtain ⟨hw, hs⟩ := (windowRow_iff _ _).1 h
  cases k <;> simp [busWrRow, hw, hs]

/-- A write row of a control register is the section's control row. -/
theorem busWrRow_control (data : Byte) (h : windowRow addr (controlSel k) = true) :
    busWrRow addr data = k.rec (.busWrCtrlA addr data) (.busWrCtrlB addr data) := by
  obtain ⟨hw, hs⟩ := (windowRow_iff _ _).1 h
  cases k <;> simp [busWrRow, hw, hs]

/-- A write row outside the window is the RAM row. -/
theorem busWrRow_ram (data : Byte) (h : inWindow addr = false) : busWrRow addr data = .busWrRam addr data := by
  simp [busWrRow, h]

/-- A data register has a direction row. -/
theorem busWrDdrRow_data (data : Byte) (h : windowRow addr (dataSel k) = true) :
    busWrDdrRow addr data = some (k.rec (.busWrDdrA addr data) (.busWrDdrB addr data)) := by
  obtain ⟨hw, hs⟩ := (windowRow_iff _ _).1 h
  cases k <;> simp [busWrDdrRow, hw, hs]

/-- An address is a data register, a control register, or outside the window. -/
theorem addr_cases (addr : Addr) :
    (∃ k, windowRow addr (dataSel k) = true) ∨ (∃ k, windowRow addr (controlSel k) = true) ∨ inWindow addr = false := by
  cases hw : inWindow addr
  · exact .inr (.inr rfl)
  · rcases sel_cases (selector addr) with ⟨-, hs⟩ | ⟨-, hs⟩
    · exact .inl ⟨_, (windowRow_iff _ _).2 ⟨hw, hs⟩⟩
    · exact .inr (.inl ⟨_, (windowRow_iff _ _).2 ⟨hw, hs⟩⟩)

/-- The row a bus read is decoded to is well-formed and its record is the read's. -/
theorem busRdRow_spec (addr : Addr) (readOnly : Bool) :
    (busRdRow addr readOnly).wellFormed = true ∧
      encode (busRdRow addr readOnly) = record addr 0x00 (boolByte readOnly) 0 0 := by
  rcases addr_cases addr with ⟨k, h⟩ | ⟨k, h⟩ | h
  · rw [busRdRow_data readOnly h]; cases k <;> exact ⟨h, rfl⟩
  · rw [busRdRow_control readOnly h]; cases k <;> exact ⟨h, rfl⟩
  · rw [busRdRow_ram readOnly h]; exact ⟨by simp [Instr.wellFormed, h], rfl⟩

/-- The row a bus write is decoded to is well-formed and its record is the write's. -/
theorem busWrRow_spec (addr : Addr) (data : Byte) :
    (busWrRow addr data).wellFormed = true ∧ encode (busWrRow addr data) = record addr 0x01 data 0 0 := by
  rcases addr_cases addr with ⟨k, h⟩ | ⟨k, h⟩ | h
  · rw [busWrRow_data data h]; cases k <;> exact ⟨h, rfl⟩
  · rw [busWrRow_control data h]; cases k <;> exact ⟨h, rfl⟩
  · rw [busWrRow_ram data h]; exact ⟨by simp [Instr.wellFormed, h], rfl⟩

/-- So is a direction row. -/
theorem busWrDdrRow_spec {data : Byte} {i : Instr} (h : busWrDdrRow addr data = some i) :
    i.wellFormed = true ∧ encode i = record addr 0x04 data 0 0 := by
  rcases addr_cases addr with ⟨k, hk⟩ | ⟨k, hk⟩ | hw
  · rw [busWrDdrRow_data data hk] at h; cases h; cases k <;> exact ⟨hk, rfl⟩
  · obtain ⟨-, hs⟩ := (windowRow_iff _ _).1 hk
    simp [busWrDdrRow, hs] at h
  · simp [busWrDdrRow, hw] at h

/-! ## Decoding what was encoded -/

/-- A read's record decodes to the row its address names. -/
theorem decode_readRecord (addr : Addr) (readOnly : Bool) (rest : List Byte) :
    decode (record addr 0x00 (boolByte readOnly) 0 0 ++ rest) = .ok (busRdRow addr readOnly) rest := by
  simp [decode_record, decodeRecord, acceptOperand, accept]

/-- A write's record decodes to the row its address names. -/
theorem decode_writeRecord (addr : Addr) (data : Byte) (rest : List Byte) :
    decode (record addr 0x01 data 0 0 ++ rest) = .ok (busWrRow addr data) rest := by
  simp [decode_record, decodeRecord, accept]

/-- A direction write's record decodes to the row its address names. -/
theorem decode_directionRecord {data : Byte} {i : Instr} (h : busWrDdrRow addr data = some i) (rest : List Byte) :
    decode (record addr 0x04 data 0 0 ++ rest) = .ok i rest := by
  simp [decode_record, decodeRecord, h, accept]

/-- A record of the batch's kind is decoded from its groups. -/
theorem decode_batch (p q r : Byte) (bytes : List Byte) :
    decode (0 :: 0 :: 0x15 :: p :: q :: r :: bytes) = acceptEvents (decodeEvents (p :: q :: r :: bytes)) := rfl

/-- A batch's record decodes to the batch. -/
theorem decode_batchRecord {events : List KeyEvent} (h : ∀ e ∈ events, e.key < 0x10000) (rest : List Byte) :
    decode (0 :: 0 :: 0x15 :: (encodeEvents events ++ rest)) = .ok (.keyBatch events) rest := by
  have hd := decodeEvents_encodeEvents events h rest
  cases events with
  | nil => exact (decode_batch ..).trans (congrArg acceptEvents hd)
  | cons e es => exact (decode_batch ..).trans (congrArg acceptEvents hd)

end Sys2Proof

open Sys2Proof Sys2Proof.Machine in
/-- Settles O1: a bus row is the one its address names, a batch reads its groups back, and every other record is decoded
from its kind byte and operands. -/
theorem decodeOfEncodeIsTheOperation : Obligations.DecodeOfEncodeIsTheOperation := by
  intro i rest hwf
  cases i with
  | busRdPortA addr ro => rw [encode, decode_readRecord, busRdRow_data (k := .a) ro hwf]
  | busRdPortB addr ro => rw [encode, decode_readRecord, busRdRow_data (k := .b) ro hwf]
  | busRdCtrlA addr ro => rw [encode, decode_readRecord, busRdRow_control (k := .a) ro hwf]
  | busRdCtrlB addr ro => rw [encode, decode_readRecord, busRdRow_control (k := .b) ro hwf]
  | busRdRam addr ro => rw [encode, decode_readRecord, busRdRow_ram ro (by simpa [Instr.wellFormed] using hwf)]
  | busWrOutA addr data => rw [encode, decode_writeRecord, busWrRow_data (k := .a) data hwf]
  | busWrOutB addr data => rw [encode, decode_writeRecord, busWrRow_data (k := .b) data hwf]
  | busWrCtrlA addr data => rw [encode, decode_writeRecord, busWrRow_control (k := .a) data hwf]
  | busWrCtrlB addr data => rw [encode, decode_writeRecord, busWrRow_control (k := .b) data hwf]
  | busWrRam addr data => rw [encode, decode_writeRecord, busWrRow_ram data (by simpa [Instr.wellFormed] using hwf)]
  | busWrDdrA addr data => exact decode_directionRecord (busWrDdrRow_data (k := .a) data hwf) rest
  | busWrDdrB addr data => exact decode_directionRecord (busWrDdrRow_data (k := .b) data hwf) rest
  | keyBatch events => exact decode_batchRecord (by simpa [Instr.wellFormed] using hwf) rest
  | romProbeRd image addr =>
    simp [encode, decode_record, decodeRecord, accept, wordOf_lowByte_highByte (of_decide_eq_true hwf)]
  | romProbeWr image addr data =>
    simp [encode, decode_record, decodeRecord, wordOf_lowByte_highByte (of_decide_eq_true hwf)]
  | keyDown key shift =>
    simp [encode, decode_record, decodeRecord, acceptOperand, accept, wordOf_lowByte_highByte (of_decide_eq_true hwf)]
  | piaSetC1 k sig => simp [encode, decode_record, decodeRecord, acceptLine, acceptOperand, accept]
  | piaSetC2 k sig => simp [encode, decode_record, decodeRecord, acceptLine, acceptOperand, accept]
  | busRdRom | busWrRom | busClk | busRst | busRomLow | busRomHigh | busPeek | piaPeek | piaSetIn | termEnq | termStep
  | termDrain | termClear | sysPowerOn | sysReset =>
    simp [encode, decode_record, decodeRecord, acceptOperand, accept]

end

section
/-! PROOF. What the decoder accepts is well-formed, and is its own encoding (30_encoding.md section 6, log 1). -/

namespace Sys2Proof

open Sys2Proof.Machine

/-! ## What was accepted -/

theorem byteBool_eq_some {v : Byte} {b : Bool} : byteBool v = some b ↔ v = boolByte b := by revert v b; decide
theorem byteSection_eq_some {v : Byte} {k : Section} : byteSection v = some k ↔ v = sectionByte k := by
  constructor
  · intro h; unfold byteSection at h; split at h
    · cases h; assumption
    · split at h <;> cases h; assumption
  · rintro rfl; simp
theorem byteSignal_eq_some {v : Byte} {sig : Signal} : byteSignal v = some sig ↔ v = signalByte sig := by
  constructor
  · intro h; unfold byteSignal at h; split at h
    · cases h; assumption
    · split at h <;> cases h; assumption
  · rintro rfl; simp
theorem byteSelector_eq_some {v : Byte} {sel : BitVec 2} : byteSelector v = some sel ↔ v = sel.setWidth 8 := by
  revert v sel; decide

variable {addr : Addr} {z : Bool} {i : Instr} {rest rest' : List Byte}

theorem accept_eq_ok {j : Instr} : accept z j rest' = .ok i rest ↔ z = true ∧ j = i ∧ rest' = rest := by
  cases z <;> simp [accept]

theorem acceptOperand_eq_ok {α : Type} {v : Byte} {parsed : Option α} {f : α → Instr} :
    acceptOperand v parsed z f rest' = .ok i rest ↔ ∃ x, parsed = some x ∧ z = true ∧ f x = i ∧ rest' = rest := by
  cases parsed <;> simp [acceptOperand, accept_eq_ok]

theorem acceptLine_eq_ok {p q : Byte} {f : Section → Signal → Instr} :
    acceptLine p q z f rest' = .ok i rest ↔
      ∃ k sig, p = sectionByte k ∧ q = signalByte sig ∧ z = true ∧ f k sig = i ∧ rest' = rest := by
  unfold acceptLine
  cases h : byteSection p with
  | none =>
    simp only [reduceCtorEq, false_iff]
    rintro ⟨k, sig, rfl, -⟩
    simp at h
  | some k =>
    rw [byteSection_eq_some] at h; subst h
    rw [acceptOperand_eq_ok]
    constructor
    · rintro ⟨sig, hs, h⟩
      exact ⟨k, sig, rfl, byteSignal_eq_some.1 hs, h⟩
    · rintro ⟨j, sig, hj, rfl, h⟩
      obtain rfl : k = j := by simpa using congrArg byteSection hj
      exact ⟨sig, byteSignal_signalByte sig, h⟩

theorem acceptEvents_eq_ok {r : Except DecodeError (List KeyEvent × List Byte)} :
    acceptEvents r = .ok i rest ↔ ∃ events, r = .ok (events, rest) ∧ i = .keyBatch events := by
  unfold acceptEvents
  split <;> simp [eq_comm, and_comm]

/-- Where an accepted operation's encoding is the bytes it was read from, they are its record. -/
theorem record_of_accept {j : Instr} {bytes : List Byte} (h : accept z j rest' = .ok i rest)
    (hj : z = true → j.wellFormed = true ∧ encode j = bytes) : i.wellFormed = true ∧ bytes ++ rest' = encode i ++ rest := by
  obtain ⟨hz, rfl, rfl⟩ := accept_eq_ok.1 h
  obtain ⟨hw, rfl⟩ := hj hz
  exact ⟨hw, rfl⟩

/-- The same where an operand byte was read. -/
theorem record_of_acceptOperand {α : Type} {v : Byte} {parsed : Option α} {f : α → Instr} {bytes : List Byte}
    (h : acceptOperand v parsed z f rest' = .ok i rest)
    (hf : ∀ x, parsed = some x → z = true → (f x).wellFormed = true ∧ encode (f x) = bytes) :
    i.wellFormed = true ∧ bytes ++ rest' = encode i ++ rest := by
  obtain ⟨x, hx, hz, rfl, rfl⟩ := acceptOperand_eq_ok.1 h
  obtain ⟨hw, rfl⟩ := hf x hx hz
  exact ⟨hw, rfl⟩

/-- The same where a section and a signal were read. -/
theorem record_of_acceptLine {p q : Byte} {f : Section → Signal → Instr} {bytes : List Byte}
    (h : acceptLine p q z f rest' = .ok i rest)
    (hf : ∀ k sig, p = sectionByte k → q = signalByte sig → z = true →
      (f k sig).wellFormed = true ∧ encode (f k sig) = bytes) :
    i.wellFormed = true ∧ bytes ++ rest' = encode i ++ rest := by
  obtain ⟨k, sig, hp, hq, hz, rfl, rfl⟩ := acceptLine_eq_ok.1 h
  obtain ⟨hw, rfl⟩ := hf k sig hp hq hz
  exact ⟨hw, rfl⟩

/-- A record that is accepted is well-formed and is its operation's encoding: the kinds in their order. -/
theorem record_of_decodeRecord {kind p q r : Byte} (h : decodeRecord addr kind p q r rest' = .ok i rest) :
    i.wellFormed = true ∧ record addr kind p q r ++ rest' = encode i ++ rest := by
  have hkind : kind = BitVec.ofNat 8 kind.toNat := by simp
  unfold decodeRecord at h
  generalize kind.toNat = n at h hkind
  subst hkind
  split at h
  -- a bus read and a bus write, listed under the row of their address
  case h_1 =>
    refine record_of_acceptOperand h fun ro hro hz => ?_
    simp_all [busRdRow_spec, byteBool_eq_some]
  case h_2 =>
    refine record_of_accept h fun hz => ?_
    simp_all [busWrRow_spec]
  -- the ROM row of a read, and a direction row
  case h_3 =>
    refine record_of_acceptOperand h fun ro hro hz => ⟨rfl, ?_⟩
    simp_all [encode, byteBool_eq_some]
  case h_5 =>
    split at h
    · next j hj =>
      refine record_of_accept h fun hz => ?_
      simp_all [busWrDdrRow_spec hj]
    · cases h
  -- the probes, whose image number is a word of two bytes
  case h_11 => exact record_of_accept h fun hz => ⟨decide_eq_true (wordOf_lt p q), by simp_all [encode]⟩
  case h_12 => cases h; exact ⟨decide_eq_true (wordOf_lt p q), by simp [encode]⟩
  -- the operations of the PIA
  case h_13 =>
    refine record_of_acceptOperand h fun sel hsel hz => ⟨rfl, ?_⟩
    simp_all [encode, byteSelector_eq_some]
  case h_14 =>
    refine record_of_acceptOperand h fun k hk hz => ⟨rfl, ?_⟩
    simp_all [encode, byteSection_eq_some]
  case h_15 | h_16 => exact record_of_acceptLine h fun k sig hp hq hz => ⟨rfl, by simp_all [encode]⟩
  -- the keys
  case h_21 =>
    refine record_of_acceptOperand h fun shift hs hz => ⟨decide_eq_true (wordOf_lt p q), ?_⟩
    simp_all [encode, byteBool_eq_some]
  case h_22 =>
    split at h
    · next hz =>
      obtain ⟨events, hd, rfl⟩ := acceptEvents_eq_ok.1 h
      obtain ⟨hw, hb⟩ := encodeEvents_of_decodeEvents _ _ _ hd
      simp_all [Instr.wellFormed, encode, record]
    · cases h
  -- no operation has the kind
  case h_25 => cases h
  -- every other record is zeros but for an address or a data byte
  all_goals exact record_of_accept h fun hz => ⟨rfl, by simp_all [encode]⟩

end Sys2Proof

open Sys2Proof Sys2Proof.Machine in
/-- Settles O2: what is accepted begins with six bytes, which are the record of the address, kind and operands read from
them. -/
theorem decodedBytesAreTheEncodedRecord : Obligations.DecodedBytesAreTheEncodedRecord := by
  intro bytes i rest h
  unfold decode at h
  split at h
  · next lo hi kind p q r rest' =>
    obtain ⟨hw, hb⟩ := record_of_decodeRecord h
    obtain ⟨hlo, hhi⟩ := bytes_of_addr hi lo
    refine ⟨hw, ?_⟩
    rw [← hb, record, hlo, hhi]
    rfl
  · cases h

end

section
/-! PROOF. What an operation can do, said once for the whole machine: it reaches the PIA, an image, one byte of RAM, the
terminal, or it is a clock or a reset. The rules of the whole machine follow case by case. -/

namespace Sys2Proof.Machine

/-! ## The bytes the terminal takes -/

/-- The terminal after it took some bytes, in their order (42_terminal.md R130). -/
def Terminal.receive (cap : Option Nat) (bytes : List Byte) (t : Terminal) : Terminal :=
  bytes.foldl (fun t v => t.enqueue cap v) t

@[simp] theorem Terminal.receive_nil (cap : Option Nat) (t : Terminal) : t.receive cap [] = t := rfl
@[simp] theorem Terminal.receive_cons (cap : Option Nat) (v : Byte) (bytes : List Byte) (t : Terminal) :
    t.receive cap (v :: bytes) = (t.enqueue cap v).receive cap bytes := rfl

/-- Bytes change the queue only. -/
theorem Terminal.receive_spec (cap : Option Nat) (bytes : List Byte) (t : Terminal) :
    t.receive cap bytes = { t with queue := (t.receive cap bytes).queue } := by
  induction bytes generalizing t with
  | nil => rfl
  | cons v bytes ih => rw [Terminal.receive_cons, ih]; simp

/-- An unbounded queue takes the bytes at its back (D9). -/
theorem Terminal.receive_unbounded (bytes : List Byte) (t : Terminal) :
    t.receive none bytes = { t with queue := t.queue ++ bytes } := by
  induction bytes generalizing t with
  | nil => simp
  | cons v bytes ih => rw [Terminal.receive_cons, ih]; simp [Terminal.enqueue]

/-- Bytes keep the queue within its capacity. -/
theorem Terminal.receive_within {cap : Option Nat} (bytes : List Byte) {t : Terminal} (h : t.queueWithin cap) :
    (t.receive cap bytes).queueWithin cap := by
  induction bytes generalizing t with
  | nil => exact h
  | cons v bytes ih => exact ih (Terminal.enqueue_within v h)

/-! ## Requests among the events -/

theorem irq_mem_requestEvents {r : IrqRouting} {j k : Section} : Event.irq j ∈ requestEvents r k ↔ j = k := by
  unfold requestEvents; split <;> simp
theorem irq_not_mem_manualEvents {j k : Section} {m : C2Mode} : Event.irq j ∉ manualEvents k m := by
  cases m <;> simp [manualEvents]
theorem irq_not_mem_strobeEvents {j : Section} {m : C2Mode} : Event.irq j ∉ strobeEvents m := by
  cases m <;> simp [strobeEvents]

/-! ## An operation that reaches the PIA at most -/

/-- What an operation that reaches the PIA at most can do: the registers and lines, the bytes of its Out(B) events in the
terminal's queue, its events at the end of the trace, a request of a section only if its level holds at the end. -/
structure PiaEffect (s t : State) (events : List Event) : Prop where
  frame : t = { s with
    secA := t.secA, secB := t.secB, term := t.term, trace := s.trace ++ events, result := t.result }
  term  : t.term = s.term.receive s.cfg.queueCap (portBBytes events)
  level : ∀ k, Event.irq k ∈ events → t.irqLevel k = true

variable {s t : State} {k : Section} {events : List Event}

/-- The result given back is no further effect. -/
theorem PiaEffect.give (h : PiaEffect s t events) (r : Result) : PiaEffect s (t.give r) events where
  frame := by rw [h.frame]; rfl
  term := h.term
  level j hj := by rw [State.give_irqLevel]; exact h.level j hj

/-- A section's control register decodes to its configuration (40_pia.md R90). -/
theorem decodeCfg_sec : decodeCfg s.cfg.cfgLayout (s.sec k).cr = s.cfgOf k := rfl

/-- One section replaced, with events that hold requests of that section at its new level at most. -/
theorem PiaEffect.of_setSec (p : PiaSection) (hb : portBBytes events = [])
    (hl : ∀ j, Event.irq j ∈ events → j = k ∧ irqLevelOf (decodeCfg s.cfg.cfgLayout p.cr) p.cr = true) :
    PiaEffect s { s.setSec k p with trace := s.trace ++ events } events where
  frame := by cases k <;> rfl
  term := by rw [hb]; simp
  level j hj := by
    obtain ⟨rfl, h⟩ := hl j hj
    rw [← h]; cases j <;> rfl

/-- One section replaced without an event. -/
theorem PiaEffect.setSec (p : PiaSection) : PiaEffect s (s.setSec k p) [] := by
  have h := PiaEffect.of_setSec (s := s) (k := k) (events := []) p rfl (by simp)
  rwa [List.append_nil, ← State.setSec_trace s k p] at h

/-- A result given back and nothing else. -/
theorem piaEffect_give (r : Result) : PiaEffect s (s.give r) [] :=
  ⟨by simp [State.give], rfl, by simp⟩

theorem piaEffect_piaWriteOut (data : Byte) : ∃ events, PiaEffect s (piaWriteOut k data s) events := by
  cases k with
  | a =>
    rw [piaWriteOut_a]
    exact ⟨_, PiaEffect.of_setSec (k := .a) { s.secA with outReg := data } rfl (by simp)⟩
  | b =>
    rw [piaWriteOut_b]
    refine ⟨.out .b (portOf data s.secB.inReg s.secB.ddr) :: strobeEvents (s.cfgOf .b).c2Mode, ⟨by simp, ?_, ?_⟩⟩
    · have : portBBytes (.out .b (portOf data s.secB.inReg s.secB.ddr) :: strobeEvents (s.cfgOf .b).c2Mode) =
          portBBytes [.out .b (portOf data s.secB.inReg s.secB.ddr)] ++ portBBytes (strobeEvents (s.cfgOf .b).c2Mode) :=
        portBBytes_append [_] _
      rw [this, portBBytes_strobeEvents]; rfl
    · intro j hj
      simp [irq_not_mem_strobeEvents] at hj

theorem piaEffect_piaWriteControl (data : Byte) : ∃ events, PiaEffect s (piaWriteControl k data s) events := by
  rw [piaWriteControl_spec, List.append_assoc]
  refine ⟨_, PiaEffect.of_setSec _ (by simp) fun j hj => ?_⟩
  simpa [irq_not_mem_manualEvents, irq_mem_requestEvents, and_comm] using hj

theorem piaEffect_setC1 (sig : Signal) : ∃ events, PiaEffect s (setC1 k sig s) events := by
  rw [setC1_spec]
  split
  · rw [List.append_assoc]
    refine ⟨_, PiaEffect.of_setSec _ (by simp) fun j hj => ?_⟩
    have hline : Event.irq j ∉ (if (s.cfgOf k).c2Mode = .handshake then [Event.lineOut k .rise] else []) := by
      split <;> simp
    simpa [hline, irq_mem_requestEvents, and_comm, decodeCfg_sec] using hj
  · exact ⟨_, PiaEffect.setSec _⟩

theorem piaEffect_setC2 (sig : Signal) : ∃ events, PiaEffect s (setC2 k sig s) events := by
  rcases setC2_spec s k sig with ⟨en, -, -, h⟩ | h <;> rw [h]
  · refine ⟨_, PiaEffect.of_setSec _ (by simp) fun j hj => ?_⟩
    simpa [irq_mem_requestEvents, and_comm, decodeCfg_sec] using hj
  · exact ⟨_, PiaEffect.setSec _⟩

theorem irq_mem_edgeEvents {j : Section} :
    Event.irq j ∈ edgeEvents s ↔ j = .a ∧ irqLevelOf (s.cfgOf .a) (setFlag1 s.secA.cr) = true := by
  have hline : Event.irq j ∉ (if (s.cfgOf .a).c2Mode = .handshake then [Event.lineOut .a .rise] else []) := by
    split <;> simp
  simp [edgeEvents, hline, irq_mem_requestEvents, and_comm]

theorem piaEffect_strobe (c : Byte) : ∃ events, PiaEffect s (strobe c s) events := by
  rw [strobe_spec]
  refine ⟨_, PiaEffect.of_setSec (k := .a) _ ?_ fun j hj => ?_⟩
  · split <;> simp
  · have : Event.irq j ∈ edgeEvents s := by split at hj <;> simpa using hj
    simpa [State.cfgOf] using irq_mem_edgeEvents.1 this

theorem piaEffect_strobeIf (code : Option Byte) : ∃ events, PiaEffect s (strobeIf code s) events := by
  cases code with
  | none => exact ⟨[], by simp [strobeIf], rfl, by simp⟩
  | some c => exact piaEffect_strobe c

/-- A bus read reaches the PIA at most. -/
theorem piaEffect_busRead (addr : Addr) : PiaEffect s (busRead addr s) [] := by
  rcases busRead_cases s addr with ⟨-, v, -, h⟩ | ⟨k, -, h⟩ | ⟨k, -, h⟩ | ⟨-, h⟩ <;> rw [h]
  · exact piaEffect_give _
  · exact (PiaEffect.setSec _).give _
  · exact piaEffect_give _
  · exact piaEffect_give _

/-! ## Every operation -/

/-- The operations that access the images, RAM or the PIA: all but the terminal's own, the clock and the resets. -/
def isAccess : Instr → Bool
  | .termEnq _  => false
  | .termStep   => false
  | .termDrain  => false
  | .termClear  => false
  | .busClk     => false
  | .busRst     => false
  | .sysPowerOn => false
  | .sysReset   => false
  | _ => true

/-- The operations that may store a byte in an image. -/
def writesRom (i : Instr) : Prop :=
  (∃ addr data, i ∈ busWriteRows addr data) ∨ ∃ n addr data, i = .romProbeWr n addr data

/-- What an operation does, by what it reaches. -/
inductive Effect (s : State) (i : Instr) (t : State) : Prop
  | pia (events : List Event) (hi : isAccess i = true) (h : PiaEffect s t events)
  | rom (roms : List RomImage) (r : Result) (hi : isAccess i = true) (hw : writesRom i)
      (hshape : romShape roms = romShape s.rom) (hro : s.cfg.romWritable = false → roms = s.rom)
      (ht : t = (s.setRom roms).give r)
  | ram (addr : Addr) (data : Byte) (hi : isAccess i = true) (hw : i ∈ busWriteRows addr data) (hr : s.reachesRam addr)
      (ht : t = (s.storeRam addr data).give .nothing)
  | terminal (term : Terminal) (hi : isTerminalOp i = true) (ht : t = (s.setTerm term).give .nothing)
  | clock (hi : i = .busClk) (ht : t = ((s.emit .cpuClock).setCycles (s.cycles + 1)).give .nothing)
  | busReset (hi : i = .busRst) (ht : t = (busReset s).give .nothing)
  | powerOn (hi : i = .sysPowerOn) (hv : configValid s.cfg = true) (ht : t = (powerOn s).give .nothing)
  | systemReset (hi : i = .sysReset) (ht : t = (systemReset s).give .nothing)

theorem isAccess_of_busReadRows {addr : Addr} {readOnly : Bool} {i : Instr} (h : i ∈ busReadRows addr readOnly) :
    isAccess i = true := by
  simp only [busReadRows, List.mem_cons, List.not_mem_nil, or_false] at h
  obtain rfl | rfl | rfl | rfl | rfl | rfl := h <;> rfl

theorem isAccess_of_busWriteRows {addr : Addr} {data : Byte} {i : Instr} (h : i ∈ busWriteRows addr data) :
    isAccess i = true := by
  simp only [busWriteRows, List.mem_cons, List.not_mem_nil, or_false] at h
  obtain rfl | rfl | rfl | rfl | rfl | rfl | rfl | rfl := h <;> rfl

theorem isAccess_of_isQuery {i : Instr} (h : isQuery i = true) : isAccess i = true := by
  cases i <;> simp_all [isQuery, isAccess]

/-- What a bus write does, by the store that takes it. -/
theorem effect_busWrite {i : Instr} {addr : Addr} {data : Byte} (hi : i ∈ busWriteRows addr data) :
    Effect s i (busWrite addr data s) := by
  have ha := isAccess_of_busWriteRows hi
  rcases busWrite_cases s addr data with
    ⟨-, roms, hw, hshape, h⟩ | ⟨k, -, -, h⟩ | ⟨k, -, -, h⟩ | ⟨k, -, h⟩ | ⟨hr, h⟩
  · refine .rom roms _ ha (.inl ⟨addr, data, hi⟩) hshape (fun hro => ?_) h
    rw [hro] at hw; exact romWrite_readOnly hw
  · obtain ⟨events, he⟩ := piaEffect_piaWriteOut (s := s) (k := k) data
    exact .pia events ha (h ▸ he.give _)
  · exact .pia [] ha (h ▸ (PiaEffect.setSec _).give _)
  · obtain ⟨events, he⟩ := piaEffect_piaWriteControl (s := s) (k := k) data
    exact .pia events ha (h ▸ he.give _)
  · exact .ram addr data ha hi hr h

/-- An image replaced in its place by one of its base and length keeps the shape of the images. -/
theorem romShape_set {roms : List RomImage} {n : Nat} {img img' : RomImage} (h : roms[n]? = some img)
    (hb : img'.base = img.base) (hl : img'.bytes.length = img.bytes.length) :
    romShape (roms.set n img') = romShape roms := by
  obtain ⟨hn, rfl⟩ := List.getElem?_eq_some_iff.1 h
  have hself : (roms[n].base, roms[n].bytes.length) = (roms.map fun img => (img.base, img.bytes.length))[n]'(by simpa) := by
    simp
  rw [romShape, List.map_set, hb, hl, hself, List.set_getElem_self, romShape]

/-- A write probe that the image claims is accepted (41_bus.md R112). -/
theorem exec_romProbeWr_claimed {n : Nat} {img : RomImage} {addr : Addr} (data : Byte) (hn : s.rom[n]? = some img)
    (hc : claims s.cfg.romVectorTruncate img addr = true) :
    exec (.romProbeWr n addr data) s =
      .next ((s.setRom (s.rom.set n (storeInImage s.cfg.romWritable img addr data))).give (.accepted true)) := by
  simp [exec, execRomProbeWr, hn, probeWrite, hc]

/-- A write probe that no image of that number claims is rejected (41_bus.md R112; log 15). -/
theorem exec_romProbeWr_rejected {n : Nat} {addr : Addr} (data : Byte)
    (h : ∀ img, s.rom[n]? = some img → claims s.cfg.romVectorTruncate img addr = false) :
    exec (.romProbeWr n addr data) s = .next (s.give (.accepted false)) := by
  cases hn : s.rom[n]? with
  | none => simp [exec, execRomProbeWr, hn]
  | some img => simp [exec, execRomProbeWr, hn, probeWrite, h img hn]

/-- The image of a number claims the address, or there is none of that number that does. -/
theorem image_claims_or_not (s : State) (n : Nat) (addr : Addr) :
    (∃ img, s.rom[n]? = some img ∧ claims s.cfg.romVectorTruncate img addr = true) ∨
      ∀ img, s.rom[n]? = some img → claims s.cfg.romVectorTruncate img addr = false := by
  cases hn : s.rom[n]? with
  | none => exact .inr fun img h => by cases h
  | some img =>
    cases hc : claims s.cfg.romVectorTruncate img addr
    · exact .inr fun img' h => by cases h; exact hc
    · exact .inl ⟨img, rfl, hc⟩

/-- A store in place of an image that is not writable changes nothing (10_state.md R31). -/
theorem set_storeInImage_readOnly {roms : List RomImage} {n : Nat} {img : RomImage} (addr : Addr) (data : Byte)
    (hn : roms[n]? = some img) : roms.set n (storeInImage false img addr data) = roms := by
  obtain ⟨hlt, rfl⟩ := List.getElem?_eq_some_iff.1 hn
  exact List.set_getElem_self hlt

/-- What a write probe does. -/
theorem effect_romProbeWr {n : Nat} {addr : Addr} {data : Byte} (h : exec (.romProbeWr n addr data) s = .next t) :
    Effect s (.romProbeWr n addr data) t := by
  rcases image_claims_or_not s n addr with ⟨img, hn, hc⟩ | hno
  · rw [exec_romProbeWr_claimed data hn hc] at h
    cases h
    refine .rom _ _ rfl (.inr ⟨n, addr, data, rfl⟩) (romShape_set hn (by simp) (by simp)) (fun hro => ?_) rfl
    rw [hro, set_storeInImage_readOnly addr data hn]
  · rw [exec_romProbeWr_rejected data hno] at h
    cases h
    exact .pia [] rfl (piaEffect_give _)

/-- What every operation does. -/
theorem effect_of_exec {i : Instr} (h : exec i s = .next t) : Effect s i t := by
  rcases exec_cases s h with ⟨addr, ro, hi, rfl⟩ | ⟨addr, data, hi, rfl⟩ | ⟨hi, r, rfl⟩ | ⟨hi, term, rfl⟩ |
    ⟨k, v, rfl, rfl⟩ | ⟨k, sig, rfl, rfl⟩ | ⟨k, sig, rfl, rfl⟩ | ⟨key, shift, rfl, rfl⟩ | ⟨es, rfl, rfl⟩ |
    ⟨n, addr, data, rfl, hw⟩ | ⟨rfl, rfl⟩ | ⟨rfl, rfl⟩ | ⟨rfl, hv, rfl⟩ | ⟨rfl, rfl⟩
  · exact .pia [] (isAccess_of_busReadRows hi) (piaEffect_busRead addr)
  · exact effect_busWrite hi
  · exact .pia [] (isAccess_of_isQuery hi) (piaEffect_give r)
  · exact .terminal term hi rfl
  · exact .pia [] rfl ((PiaEffect.setSec _).give _)
  · obtain ⟨events, he⟩ := piaEffect_setC1 (s := s) (k := k) sig
    exact .pia events rfl (he.give _)
  · obtain ⟨events, he⟩ := piaEffect_setC2 (s := s) (k := k) sig
    exact .pia events rfl (he.give _)
  · obtain ⟨events, he⟩ := piaEffect_strobeIf (s := s) (acceptedCode s.cfg key shift)
    exact .pia events rfl (he.give _)
  · obtain ⟨events, he⟩ := piaEffect_strobeIf (s := s) (firstMatch s.cfg es)
    exact .pia events rfl (he.give _)
  · exact effect_romProbeWr hw
  · exact .clock rfl rfl
  · exact .busReset rfl rfl
  · exact .powerOn rfl hv rfl
  · exact .systemReset rfl rfl

end Sys2Proof.Machine
end

section
/-! PROOF. The invariant of the machine and the rules of the whole machine about the counter, the trace, the images, RAM
and the terminal, each by what an operation reaches. -/

namespace Sys2Proof.Machine

variable {s t : State} {k : Section} {events : List Event} {i : Instr}

/-! ## What an access of the PIA leaves alone -/

theorem PiaEffect.ram (h : PiaEffect s t events) : t.ram = s.ram := by rw [h.frame]
theorem PiaEffect.rom (h : PiaEffect s t events) : t.rom = s.rom := by rw [h.frame]
theorem PiaEffect.cycles (h : PiaEffect s t events) : t.cycles = s.cycles := by rw [h.frame]
theorem PiaEffect.trace (h : PiaEffect s t events) : t.trace = s.trace ++ events := by rw [h.frame]
theorem PiaEffect.pending (h : PiaEffect s t events) : t.pending = s.pending := by rw [h.frame]
theorem PiaEffect.cfg (h : PiaEffect s t events) : t.cfg = s.cfg := by rw [h.frame]
theorem PiaEffect.grid (h : PiaEffect s t events) : t.term.grid = s.term.grid := by
  rw [h.term, Terminal.receive_spec]
theorem PiaEffect.cur (h : PiaEffect s t events) : t.term.cur = s.term.cur := by
  rw [h.term, Terminal.receive_spec]
theorem PiaEffect.pix (h : PiaEffect s t events) : t.term.pix = s.term.pix := by
  rw [h.term, Terminal.receive_spec]

/-- An access is none of the other operations. -/
theorem ne_of_isAccess (h : isAccess i = true) :
    i ≠ .busClk ∧ i ≠ .busRst ∧ i ≠ .sysPowerOn ∧ isTerminalOp i = false ∧ isSystemReset i = false := by
  cases i <;> simp_all [isAccess, isTerminalOp, isSystemReset]

/-- Nor is an operation of the terminal's own. -/
theorem ne_of_isTerminalOp (h : isTerminalOp i = true) :
    i ≠ .busClk ∧ i ≠ .busRst ∧ i ≠ .sysPowerOn ∧ isSystemReset i = false := by
  cases i <;> simp_all [isTerminalOp, isSystemReset]

/-! ## The resets and RAM -/

/-- What power-on leaves (70_reset_and_hazards.md R180). -/
theorem powerOn_eq (s : State) :
    powerOn s =
      { s with
        secA := PiaSection.afterReset s.cfg.resetLine
        secB := PiaSection.afterReset s.cfg.resetLine
        ram := s.cfg.ramInit
        rom := s.cfg.romImages
        cycles := 0
        term := Terminal.afterReset
        trace := [] } := rfl

/-- What a system reset leaves (70_reset_and_hazards.md R181). -/
theorem systemReset_eq (s : State) :
    systemReset s =
      { s with
        secA := PiaSection.afterReset s.cfg.resetLine
        secB := PiaSection.afterReset s.cfg.resetLine
        cycles := 0
        term := Terminal.afterReset
        trace := s.trace ++ [.cpuReset] } := rfl

/-- Power-on asks for a valid configuration (60_exceptions.md R161). -/
theorem exec_sysPowerOn_valid (h : configValid s.cfg = true) :
    exec .sysPowerOn s = .next ((powerOn s).give .nothing) := if_pos h
theorem exec_sysPowerOn_invalid (h : configValid s.cfg = false) :
    exec .sysPowerOn s = .refused .invalidConfiguration := by simp [exec, execSysPowerOn, h]
theorem exec_sysReset : exec .sysReset s = .next ((systemReset s).give .nothing) := rfl

@[simp] theorem storeRam_ram (addr : Addr) (v : Byte) : (s.storeRam addr v).ram = Memory.write s.ram addr.toNat v := rfl
@[simp] theorem storeRam_sec (addr : Addr) (v : Byte) : (s.storeRam addr v).sec k = s.sec k := by cases k <;> rfl
@[simp] theorem storeRam_rom (addr : Addr) (v : Byte) : (s.storeRam addr v).rom = s.rom := rfl
@[simp] theorem storeRam_cycles (addr : Addr) (v : Byte) : (s.storeRam addr v).cycles = s.cycles := rfl
@[simp] theorem storeRam_term (addr : Addr) (v : Byte) : (s.storeRam addr v).term = s.term := rfl
@[simp] theorem storeRam_trace (addr : Addr) (v : Byte) : (s.storeRam addr v).trace = s.trace := rfl
@[simp] theorem storeRam_pending (addr : Addr) (v : Byte) : (s.storeRam addr v).pending = s.pending := rfl
@[simp] theorem storeRam_cfg (addr : Addr) (v : Byte) : (s.storeRam addr v).cfg = s.cfg := rfl

/-- A store leaves every other byte (20_memory.md section 3). -/
theorem storeRam_ramByte_other {a addr : Addr} (v : Byte) (h : a ≠ addr) :
    (s.storeRam addr v).ramByte a = s.ramByte a :=
  Memory.read_write_other s.ram v fun e => h (BitVec.eq_of_toNat_eq e)

/-- A store in canonical RAM reads back (20_memory.md section 3). -/
theorem storeRam_ramByte_same (addr : Addr) (v : Byte) (h : Memory.wf s.ram = true) :
    (s.storeRam addr v).ramByte addr = v :=
  Memory.read_write_same h addr.toNat v

/-! ## The invariant -/

/-- A cleared terminal holds spaces only. -/
theorem Terminal.gridPrintable_blank {t : Terminal}
    (h : t.grid = Vector.replicate gridRows (Vector.replicate gridCols spaceCode)) : t.gridPrintable := by
  intro y x
  rw [h, cellAt_replicate]
  rfl

theorem exec_termEnq (v : Byte) : exec (.termEnq v) s = .next ((enqueue v s).give .nothing) := rfl
theorem exec_termStep : exec .termStep s = .next ((s.setTerm (s.term.step s.cfg.glyph)).give .nothing) := rfl
theorem exec_termDrain : exec .termDrain s = .next ((s.setTerm (s.term.drain s.cfg.glyph)).give .nothing) := rfl
theorem exec_termClear : exec .termClear s = .next ((s.setTerm s.term.clear).give .nothing) := rfl

/-- What the terminal's own operations make of the terminal. -/
theorem exec_terminalOp (hi : isTerminalOp i = true) (h : exec i s = .next t) :
    (∃ v, i = .termEnq v ∧ t = (s.setTerm (s.term.enqueue s.cfg.queueCap v)).give .nothing) ∨
    (i = .termStep ∧ t = (s.setTerm (s.term.step s.cfg.glyph)).give .nothing) ∨
    (i = .termDrain ∧ t = (s.setTerm (s.term.drain s.cfg.glyph)).give .nothing) ∨
    (i = .termClear ∧ t = (s.setTerm s.term.clear).give .nothing) := by
  cases i <;> cases hi
  case termEnq v => rw [exec_termEnq] at h; cases h; exact .inl ⟨v, rfl, rfl⟩
  case termStep => rw [exec_termStep] at h; cases h; exact .inr (.inl ⟨rfl, rfl⟩)
  case termDrain => rw [exec_termDrain] at h; cases h; exact .inr (.inr (.inl ⟨rfl, rfl⟩))
  case termClear => rw [exec_termClear] at h; cases h; exact .inr (.inr (.inr ⟨rfl, rfl⟩))

/-- They keep the grid printable and the queue within its capacity. -/
theorem terminalOp_keeps_invariant (hi : isTerminalOp i = true) (h : exec i s = .next t) (hg : s.term.gridPrintable)
    (hq : s.term.queueWithin s.cfg.queueCap) : t.term.gridPrintable ∧ t.term.queueWithin s.cfg.queueCap := by
  rcases exec_terminalOp hi h with ⟨v, -, rfl⟩ | ⟨-, rfl⟩ | ⟨-, rfl⟩ | ⟨-, rfl⟩ <;>
    rw [State.give_term, State.setTerm_term]
  · exact ⟨fun y x => by rw [Terminal.enqueue_grid]; exact hg y x, Terminal.enqueue_within v hq⟩
  · exact ⟨Terminal.step_gridPrintable _ hg, Terminal.step_queueWithin _ hq⟩
  · exact ⟨Terminal.drain_induction (P := Terminal.gridPrintable) _ (fun _ => Terminal.step_gridPrintable _) hg,
      Terminal.drain_induction (P := Terminal.queueWithin _) _ (fun _ => Terminal.step_queueWithin _) hq⟩
  · exact ⟨Terminal.gridPrintable_blank rfl, hq⟩

/-- Every operation keeps the invariant. -/
theorem exec_keeps_invariant (hs : s.Inv) (h : exec i s = .next t) : t.Inv := by
  obtain ⟨hram, hinit, hcfg, hshape, hro, hgrid, hqueue⟩ := hs
  cases effect_of_exec h with
  | pia events hi he =>
    refine ⟨?_, ?_, ?_, ?_, ?_, fun y x => ?_, ?_⟩
    · rwa [he.ram]
    · rwa [he.cfg]
    · rwa [he.cfg]
    · rwa [he.rom, he.cfg]
    · rwa [he.rom, he.cfg]
    · rw [he.grid]; exact hgrid y x
    · rw [he.term, he.cfg]; exact Terminal.receive_within _ hqueue
  | rom roms r hi hw hsh hkept ht =>
    subst ht
    exact ⟨hram, hinit, hcfg, hsh.trans hshape, fun hw => (hkept hw).trans (hro hw), hgrid, hqueue⟩
  | ram addr data hi hw hr ht =>
    subst ht
    exact ⟨Memory.wf_write hram addr.isLt data, hinit, hcfg, hshape, hro, hgrid, hqueue⟩
  | terminal term hi ht =>
    obtain ⟨hg, hq⟩ := terminalOp_keeps_invariant hi h hgrid hqueue
    subst ht
    exact ⟨hram, hinit, hcfg, hshape, hro, hg, hq⟩
  | clock hi ht => subst ht; exact ⟨hram, hinit, hcfg, hshape, hro, hgrid, hqueue⟩
  | busReset hi ht => subst ht; exact ⟨hram, hinit, hcfg, hshape, hro, hgrid, hqueue⟩
  | powerOn hi hv ht =>
    subst ht
    exact ⟨hinit, hinit, hcfg, rfl, fun _ => rfl, Terminal.gridPrintable_blank rfl, fun n _ => Nat.zero_le n⟩
  | systemReset hi ht =>
    subst ht
    exact ⟨hram, hinit, hcfg, hshape, hro, Terminal.gridPrintable_blank rfl, fun n _ => Nat.zero_le n⟩

end Sys2Proof.Machine

open Sys2Proof.Machine in
/-- Settles O7: a step is idle or runs an operation, and every operation keeps the invariant, whatever is pending. -/
theorem stepKeepsTheInvariant : Obligations.StepKeepsTheInvariant := by
  intro s t hs h
  rcases step_cases s h with ⟨-, rfl⟩ | ⟨i, rest, -, he⟩
  · exact hs
  · have hp : (s.setPending rest).Inv :=
      ⟨hs.ramWf, hs.ramInitWf, hs.configOk, hs.romKept, hs.romReadOnly, hs.gridOk, hs.queueOk⟩
    exact exec_keeps_invariant hp he

open Sys2Proof.Machine in
/-- Settles O6: RAM, images and queue of the reset state are empty, its grid is all spaces. -/
theorem resetMeetsTheInvariant : Obligations.ResetMeetsTheInvariant :=
  ⟨rfl, rfl, rfl, rfl, fun _ => rfl, Terminal.gridPrintable_blank rfl, fun n _ => Nat.zero_le n⟩

open Sys2Proof.Machine in
/-- Settles O8: power-on alone can be refused, and a valid configuration is what it asks for; a write probe answers
whether or not the image accepts. -/
theorem everyOperationAnswersANextState : Obligations.EveryOperationAnswersANextState := by
  intro i s hv
  cases i
  case sysPowerOn => exact ⟨_, exec_sysPowerOn_valid hv⟩
  case romProbeWr n addr data =>
    rcases image_claims_or_not s n addr with ⟨img, hn, hc⟩ | hno
    · exact ⟨_, exec_romProbeWr_claimed data hn hc⟩
    · exact ⟨_, exec_romProbeWr_rejected data hno⟩
  all_goals exact ⟨_, rfl⟩

end

section
/-! PROOF. The counter, the trace and the requests in it, the tables and images, and the frame of RAM: by what an
operation reaches. -/

namespace Sys2Proof.Machine

/-- No operation changes a parameter or the pending operations (logs 1, 11). -/
theorem exec_cfg_pending {i : Instr} {s t : State} (h : exec i s = .next t) : t.cfg = s.cfg ∧ t.pending = s.pending := by
  cases effect_of_exec h with
  | pia events hi he => exact ⟨he.cfg, he.pending⟩
  | rom roms r hi hw hsh hkept ht => subst ht; exact ⟨rfl, rfl⟩
  | ram addr data hi hw hr ht => subst ht; exact ⟨rfl, rfl⟩
  | terminal term hi ht => subst ht; exact ⟨rfl, rfl⟩
  | clock hi ht => subst ht; exact ⟨rfl, rfl⟩
  | busReset hi ht => subst ht; exact ⟨rfl, rfl⟩
  | powerOn hi hv ht => subst ht; exact ⟨rfl, rfl⟩
  | systemReset hi ht => subst ht; exact ⟨rfl, rfl⟩

/-- Pending bytes that are no record are refused by name (log 20). -/
theorem step_of_reject {s : State} {e : DecodeError} (hne : s.pending ≠ []) (h : decode s.pending = .reject e) :
    step s = .refused (.notAnOperation e) := by
  unfold step fetch
  cases hp : s.pending with
  | nil => exact absurd hp hne
  | cons b bs => rw [hp] at h; simp only [h]

end Sys2Proof.Machine

open Sys2Proof Sys2Proof.Machine in
/-- Settles O53: the clock and the resets assign the counter, and nothing else an operation reaches holds it. -/
theorem theCounterCountsClocksSinceReset : Obligations.TheCounterCountsClocksSinceReset := by
  intro i s t h
  have keeps (hc : i ≠ .busClk) (hr : i ≠ .busRst) (hs : isSystemReset i = false) (ht : t.cycles = s.cycles) :
      t.cycles = (if i = .busClk then s.cycles + 1 else if i = .busRst ∨ isSystemReset i = true then 0 else s.cycles) := by
    simp [hc, hr, hs, ht]
  cases effect_of_exec h with
  | pia events hi he =>
    obtain ⟨hc, hr, -, -, hs⟩ := ne_of_isAccess hi
    exact keeps hc hr hs he.cycles
  | rom roms r hi hw hsh hkept ht =>
    obtain ⟨hc, hr, -, -, hs⟩ := ne_of_isAccess hi
    exact keeps hc hr hs (by simp [ht])
  | ram addr data hi hw hr ht =>
    obtain ⟨hc, hr, -, -, hs⟩ := ne_of_isAccess hi
    exact keeps hc hr hs (by simp [ht])
  | terminal term hi ht =>
    obtain ⟨hc, hr, -, hs⟩ := ne_of_isTerminalOp hi
    exact keeps hc hr hs (by simp [ht])
  | clock hi ht => simp [hi, ht]
  | busReset hi ht => simp [hi, ht, busReset]
  | powerOn hi hv ht => simp [hi, ht, powerOn_eq, isSystemReset]
  | systemReset hi ht => simp [hi, ht, systemReset_eq, isSystemReset]

open Sys2Proof Sys2Proof.Machine in
/-- Settles O55: every operation but power-on leaves the trace or appends to it. -/
theorem theTraceOnlyGrows : Obligations.TheTraceOnlyGrows := by
  intro i s t h hi
  cases effect_of_exec h with
  | pia events _ he => exact ⟨events, he.trace⟩
  | rom roms r _ hw hsh hkept ht => exact ⟨[], by simp [ht]⟩
  | ram addr data _ hw hr ht => exact ⟨[], by simp [ht]⟩
  | terminal term _ ht => exact ⟨[], by simp [ht]⟩
  | clock _ ht => exact ⟨[.cpuClock], by simp [ht]⟩
  | busReset _ ht => exact ⟨[.cpuReset], by simp [ht, busReset]⟩
  | powerOn hp => exact absurd hp hi
  | systemReset _ ht => exact ⟨[.cpuReset], by simp [ht, systemReset_eq]⟩

open Sys2Proof Sys2Proof.Machine in
/-- Settles O54: only an access of the PIA appends a request, and that only with the level it leaves. -/
theorem anIrqEventMeansTheLevelHolds : Obligations.AnIrqEventMeansTheLevelHolds := by
  intro i s t k events h htr hmem
  have none_of {es : List Event} (ht : t.trace = s.trace ++ es) (hno : Event.irq k ∉ es) : t.irqLevel k = true :=
    absurd (List.append_cancel_left (htr.symm.trans ht) ▸ hmem) hno
  cases effect_of_exec h with
  | pia events' _ he =>
    obtain rfl : events = events' := List.append_cancel_left (htr.symm.trans he.trace)
    exact he.level k hmem
  | rom roms r _ hw hsh hkept ht => exact none_of (es := []) (by simp [ht]) (by simp)
  | ram addr data _ hw hr ht => exact none_of (es := []) (by simp [ht]) (by simp)
  | terminal term _ ht => exact none_of (es := []) (by simp [ht]) (by simp)
  | clock _ ht => exact none_of (es := [.cpuClock]) (by simp [ht]) (by simp)
  | busReset _ ht => exact none_of (es := [.cpuReset]) (by simp [ht, busReset]) (by simp)
  | powerOn _ hv ht =>
    have hnil : s.trace ++ events = [] := by rw [← htr, ht, powerOn_eq]; rfl
    simp [(List.append_eq_nil_iff.1 hnil).2] at hmem
  | systemReset _ ht => exact none_of (es := [.cpuReset]) (by simp [ht, systemReset_eq]) (by simp)

open Sys2Proof Sys2Proof.Machine in
/-- Settles O56: the images change by a store that keeps their shape, or at power-on to the installed ones. -/
theorem tablesAndImageShapesNeverChange : Obligations.TablesAndImageShapesNeverChange := by
  intro i s t h
  obtain ⟨hcfg, hpend⟩ := exec_cfg_pending h
  have kept (hp : i ≠ .sysPowerOn) (ht : t.rom = s.rom) :
      t.cfg = s.cfg ∧ t.pending = s.pending ∧ (i ≠ .sysPowerOn → romShape t.rom = romShape s.rom) ∧
        (i = .sysPowerOn → t.rom = s.cfg.romImages) ∧
        (i ≠ .sysPowerOn → t.rom ≠ s.rom → s.cfg.romWritable = true ∧ writesRom i) :=
    ⟨hcfg, hpend, fun _ => by rw [ht], fun h => absurd h hp, fun _ h => absurd ht h⟩
  cases effect_of_exec h with
  | pia events hi he =>
    obtain ⟨-, -, hp, -, -⟩ := ne_of_isAccess hi
    exact kept hp he.rom
  | rom roms r hi hw hsh hro ht =>
    obtain ⟨-, -, hp, -, -⟩ := ne_of_isAccess hi
    subst ht
    refine ⟨hcfg, hpend, fun _ => hsh, fun h => absurd h hp, fun _ hne => ⟨?_, hw⟩⟩
    by_contra hw
    exact hne (hro (by simpa using hw))
  | ram addr data hi hw hr ht =>
    obtain ⟨-, -, hp, -, -⟩ := ne_of_isAccess hi
    exact kept hp (by simp [ht])
  | terminal term hi ht =>
    obtain ⟨-, -, hp, -⟩ := ne_of_isTerminalOp hi
    exact kept hp (by simp [ht])
  | clock hi ht => exact kept (by simp [hi]) (by simp [ht])
  | busReset hi ht => exact kept (by simp [hi]) (by simp [ht, busReset])
  | powerOn hi hv ht =>
    exact ⟨hcfg, hpend, fun h => absurd hi h, fun _ => by simp [ht, powerOn_eq], fun h => absurd hi h⟩
  | systemReset hi ht => exact kept (by simp [hi]) (by simp [ht, systemReset_eq])

open Sys2Proof Sys2Proof.Machine in
/-- Settles O57: a store that reaches RAM leaves every address but its own, and nothing else but power-on changes RAM. -/
theorem ramChangesOnlyAtTheAddressWritten : Obligations.RamChangesOnlyAtTheAddressWritten := by
  intro i s t a h hp ha
  cases effect_of_exec h with
  | pia events hi he => exact congrArg (Memory.read · a.toNat) he.ram
  | rom roms r _ hw hsh hkept ht => simp [ht]
  | ram addr data hi hw hr ht =>
    have hne : a ≠ addr := fun e => ha data (e ▸ hw) (e ▸ hr)
    rw [ht, State.give_ramByte, storeRam_ramByte_other data hne]
  | terminal term _ ht => simp [ht]
  | clock _ ht => simp [ht]
  | busReset _ ht => simp [ht, busReset]
  | powerOn hi => exact absurd hi hp
  | systemReset _ ht => subst ht; rfl

open Sys2Proof Sys2Proof.Machine in
/-- Settles O5: the step's cases, and for what the agents issued the round trip of the first record. -/
theorem stepRunsThePendingOperation : Obligations.StepRunsThePendingOperation := by
  intro s
  refine ⟨fun i rest h => step_of_decode s h, fun h => step_idle s h, fun e hne h => ?_, fun t hs h => ?_⟩
  · exact step_of_reject hne h
  · rcases step_cases s h with ⟨hp, rfl⟩ | ⟨i, rest, hd, he⟩
    · exact ⟨hs, .inl ⟨hp, rfl⟩⟩
    · obtain ⟨ops, hops, hall⟩ := hs
      cases ops with
      | nil => rw [hops] at hd; cases hd
      | cons j ops =>
        obtain ⟨hw, hagent⟩ := hall j (by simp)
        obtain ⟨agent, hagent⟩ := Option.isSome_iff_exists.1 hagent
        rw [List.flatMap_cons] at hops
        have hj := decodeOfEncodeIsTheOperation j (ops.flatMap encode) hw
        rw [← hops, hd] at hj
        cases hj
        have hpend : t.pending = ops.flatMap encode := (exec_cfg_pending he).2
        exact ⟨⟨ops, hpend, fun j hj => hall j (List.mem_cons_of_mem _ hj)⟩, .inr ⟨i, agent, _, hagent, hops, he⟩⟩

end

section
/-! PROOF. The terminal and the rest of the block are separate (42_terminal.md R143, 40_pia.md R102). -/

namespace Sys2Proof.Machine

variable {s t : State} {i : Instr}

/-- An operation of the terminal's own assigns the terminal, and gives nothing back. -/
theorem terminalOp_frame (hi : isTerminalOp i = true) (h : exec i s = .next t) :
    t = { s with term := t.term, result := .nothing } := by
  rcases exec_terminalOp hi h with ⟨v, -, rfl⟩ | ⟨-, rfl⟩ | ⟨-, rfl⟩ | ⟨-, rfl⟩ <;> rfl

/-- Grid, cursor and surface are the terminal's own and the resets'. -/
theorem exec_keeps_screen (hi : isTerminalOp i = false) (hr : isSystemReset i = false) (h : exec i s = .next t) :
    t.term.grid = s.term.grid ∧ t.term.cur = s.term.cur ∧ t.term.pix = s.term.pix := by
  cases effect_of_exec h with
  | pia events _ he => exact ⟨he.grid, he.cur, he.pix⟩
  | rom roms r _ hw hsh hkept ht => simp [ht]
  | ram addr data _ hw _ ht => simp [ht]
  | terminal term ht => rw [ht] at hi; cases hi
  | clock _ ht => simp [ht]
  | busReset _ ht => simp [ht, busReset]
  | powerOn hp => subst hp; cases hr
  | systemReset hs => subst hs; cases hr

/-- What an agent's operation adds to an unbounded queue: the bytes of its Out(B) events, after it took bytes from the
front at most. -/
theorem exec_queue (ha : (issuerOf i).isSome = true) (hp : i ≠ .sysPowerOn) (hcap : s.cfg.queueCap = none)
    (h : exec i s = .next t) :
    ∃ events n, t.trace = s.trace ++ events ∧ t.term.queue = s.term.queue.drop n ++ portBBytes events := by
  cases effect_of_exec h with
  | pia events _ he => exact ⟨events, 0, he.trace, by rw [he.term, hcap, Terminal.receive_unbounded]; rfl⟩
  | rom roms r _ hw hsh hkept ht => exact ⟨[], 0, by simp [ht], by simp [ht]⟩
  | ram addr data _ hw hr ht => exact ⟨[], 0, by simp [ht], by simp [ht]⟩
  | terminal term hi ht =>
    have htr : t.trace = s.trace ++ [] := by simp [ht]
    rcases exec_terminalOp hi h with ⟨v, rfl, -⟩ | ⟨-, hterm⟩ | ⟨-, hterm⟩ | ⟨-, hterm⟩
    · cases ha
    · exact ⟨[], 1, htr, by simp [hterm]⟩
    · exact ⟨[], s.term.queue.length, htr, by simp [hterm]⟩
    · exact ⟨[], 0, htr, by simp [hterm, Terminal.clear]⟩
  | clock _ ht => exact ⟨[.cpuClock], 0, by simp [ht], by simp [ht, portBBytes]⟩
  | busReset _ ht => exact ⟨[.cpuReset], 0, by simp [ht, busReset], by simp [ht, busReset, portBBytes]⟩
  | powerOn hi => exact absurd hi hp
  | systemReset _ ht =>
    exact ⟨[.cpuReset], s.term.queue.length, by simp [ht, systemReset_eq],
      by simp [ht, systemReset_eq, Terminal.afterReset, portBBytes]⟩

end Sys2Proof.Machine

open Sys2Proof Sys2Proof.Machine in
/-- Settles O42: the terminal's operations assign the terminal only; an access gives it the bytes of its Out(B) events;
the clock leaves it and the resets clear it. -/
theorem terminalAndTheRestAreSeparate : Obligations.TerminalAndTheRestAreSeparate := by
  intro i s t h
  refine ⟨fun hi => terminalOp_frame hi h, fun hi hr => exec_keeps_screen hi hr h, ?_, fun ha hp hcap =>
    exec_queue ha hp hcap h⟩
  rintro v rfl
  rw [exec_termEnq] at h
  cases h
  simp [enqueue]

end

section
/-! PROOF. What an operation does to the registers and lines of one section, said once; who clears and sets a flag, who
writes a register and who moves control line 2 follow case by case (10_state.md section 2, 40_pia.md). -/

namespace Sys2Proof.Machine

variable {s t : State} {i : Instr} {j k : Section}

/-! ## One section after each operation on the PIA -/

@[simp] theorem State.sec_setTrace (events : List Event) : ({ s with trace := events } : State).sec j = s.sec j := by
  cases j <;> rfl

/-- Where line 2 of a section is after a port write: only section B moves its own (40_pia.md R96, R104). -/
def portWriteLine (k : Section) (m : C2Mode) (old : Signal) : Signal :=
  match k with
  | .a => old
  | .b => strobedLine m old

/-- Where line 2 is after an active transition of line 1 (40_pia.md R99). -/
def raisedLine (m : C2Mode) (old : Signal) : Signal := if m = .handshake then .rise else old

theorem piaWriteOut_sec (data : Byte) :
    (piaWriteOut k data s).sec j =
      if j = k then { s.sec k with outReg := data, c2 := portWriteLine k (s.cfgOf k).c2Mode (s.sec k).c2 }
      else s.sec j := by
  cases k
  · rw [piaWriteOut_a]; cases j <;> rfl
  · rw [piaWriteOut_b]; cases j <;> rfl

theorem piaWriteControl_sec (data : Byte) :
    (piaWriteControl k data s).sec j =
      if j = k then { s.sec k with
        cr := writeConfig (s.sec k).cr data
        c2 := manualLine ((piaWriteControl k data s).cfgOf k).c2Mode (s.sec k).c2 }
      else s.sec j := by
  rw [piaWriteControl_cfgOf, ← decodeCfg_congr _ (writeConfig_config (s.sec k).cr data), piaWriteControl_spec,
    State.sec_setTrace, State.setSec_sec]

theorem setIn_sec (v : Byte) : (setIn k v s).sec j = if j = k then { s.sec k with inReg := v } else s.sec j :=
  State.setSec_sec s k j _

theorem setC1_sec (sig : Signal) :
    (setC1 k sig s).sec j =
      if j = k then
        if sig ≠ (s.sec k).c1 ∧ sig = (s.cfgOf k).c1Edge then
          { s.sec k with
            c1 := sig, cr := setFlag1 (s.sec k).cr, c2 := raisedLine (s.cfgOf k).c2Mode (s.sec k).c2 }
        else { s.sec k with c1 := sig }
      else s.sec j := by
  rw [setC1_spec]
  split
  · rw [State.sec_setTrace, State.setSec_sec]; rfl
  · rw [State.setSec_sec]

theorem strobe_sec (c : Byte) :
    (strobe c s).sec j =
      if j = .a then { s.secA with
        inReg := latchedCode c
        cr := setFlag1 s.secA.cr
        c1 := .fall
        c2 := raisedLine (s.cfgOf .a).c2Mode s.secA.c2 }
      else s.sec j := by
  rw [strobe_spec]; cases j <;> rfl

/-- A reset leaves both flags clear (70_reset_and_hazards.md R182). -/
@[simp] theorem flag1_afterReset (line : Signal) : flag1 (PiaSection.afterReset line).cr = false := by
  show flag1 resetRegister = false; decide
@[simp] theorem flag2_afterReset (line : Signal) : flag2 (PiaSection.afterReset line).cr = false := by
  show flag2 resetRegister = false; decide

/-- No flag is a configuration bit. -/
@[simp] theorem clearFlags_and_config (cr : Byte) : clearFlags cr &&& 0x3F#8 = cr &&& 0x3F#8 := by revert cr; decide
@[simp] theorem setFlag1_and_config (cr : Byte) : setFlag1 cr &&& 0x3F#8 = cr &&& 0x3F#8 := by revert cr; decide
@[simp] theorem setFlag2_and_config (cr : Byte) : setFlag2 cr &&& 0x3F#8 = cr &&& 0x3F#8 := by revert cr; decide

/-- A control write moves line 2 to a manual level only. -/
theorem manualLine_ne {m : C2Mode} {old : Signal} (h : manualLine m old ≠ old) : m = .manual (manualLine m old) := by
  cases m with
  | manual level => rfl
  | input | handshake | pulse => exact absurd rfl h

/-- An active edge of line 1 moves line 2 in handshake mode only, and up. -/
theorem raisedLine_ne {m : C2Mode} {old : Signal} (h : raisedLine m old ≠ old) : m = .handshake ∧ raisedLine m old = .rise := by
  by_cases hm : m = .handshake
  · exact ⟨hm, if_pos hm⟩
  · exact absurd (if_neg hm) h

/-- A port write moves line 2 of section B only, down in handshake mode and up at last in pulse mode. -/
theorem portWriteLine_ne {m : C2Mode} {old : Signal} (h : portWriteLine k m old ≠ old) :
    k = .b ∧ (m = .handshake ∧ portWriteLine k m old = .fall ∨ m = .pulse ∧ portWriteLine k m old = .rise) := by
  cases k with
  | a => exact absurd rfl h
  | b =>
    cases m with
    | handshake => exact ⟨rfl, .inl ⟨rfl, rfl⟩⟩
    | pulse => exact ⟨rfl, .inr ⟨rfl, rfl⟩⟩
    | manual | input => exact absurd rfl h

/-! ## Every operation -/

/-- The operation is an accepted key with this code. -/
def keyAccepted (s : State) (i : Instr) (c : Byte) : Prop :=
  (∃ key shift, i = .keyDown key shift ∧ acceptedCode s.cfg key shift = some c) ∨
    ∃ events, i = .keyBatch events ∧ firstMatch s.cfg events = some c

theorem keyAccepted.isKey {c : Byte} (h : keyAccepted s i c) :
    (∃ key shift, i = .keyDown key shift) ∨ ∃ events, i = .keyBatch events := by
  rcases h with ⟨key, shift, hi, -⟩ | ⟨es, hi, -⟩
  · exact .inl ⟨key, shift, hi⟩
  · exact .inr ⟨es, hi⟩

/-- What an operation does to one section. -/
inductive SectionEffect (s : State) (i : Instr) (t : State) (k : Section) : Prop
  | kept (h : t.sec k = s.sec k)
  | readData (addr : Addr) (readOnly : Bool) (hi : i ∈ busReadRows addr readOnly) (hr : s.reachesPia addr (dataSel k))
      (h : t.sec k = { s.sec k with cr := clearFlags (s.sec k).cr })
  | writeOut (addr : Addr) (data : Byte) (hi : i ∈ busWriteRows addr data) (hr : s.reachesPia addr (dataSel k))
      (hp : (s.cfgOf k).portMode = true)
      (h : t.sec k = { s.sec k with outReg := data, c2 := portWriteLine k (s.cfgOf k).c2Mode (s.sec k).c2 })
  | writeDdr (addr : Addr) (data : Byte) (hi : i ∈ busWriteRows addr data) (hr : s.reachesPia addr (dataSel k))
      (hp : (s.cfgOf k).portMode = false) (h : t.sec k = { s.sec k with ddr := data })
  | writeControl (addr : Addr) (data : Byte) (hi : i ∈ busWriteRows addr data) (hr : s.reachesPia addr (controlSel k))
      (h : t.sec k = { s.sec k with
        cr := writeConfig (s.sec k).cr data, c2 := manualLine (t.cfgOf k).c2Mode (s.sec k).c2 })
  | setIn (v : Byte) (hi : i = .piaSetIn k v) (h : t.sec k = { s.sec k with inReg := v })
  | line1 (sig : Signal) (hi : i = .piaSetC1 k sig) (h : t.sec k = { s.sec k with c1 := sig })
  | edge1 (hi : i = .piaSetC1 k (s.cfgOf k).c1Edge) (hne : (s.sec k).c1 ≠ (s.cfgOf k).c1Edge)
      (h : t.sec k = { s.sec k with
        c1 := (s.cfgOf k).c1Edge, cr := setFlag1 (s.sec k).cr, c2 := raisedLine (s.cfgOf k).c2Mode (s.sec k).c2 })
  | line2 (sig : Signal) (hi : i = .piaSetC2 k sig) (h : t.sec k = { s.sec k with c2 := sig })
  | edge2 (edge : Signal) (enabled : Bool) (hi : i = .piaSetC2 k edge) (hm : (s.cfgOf k).c2Mode = .input edge enabled)
      (hne : (s.sec k).c2 ≠ edge) (h : t.sec k = { s.sec k with c2 := edge, cr := setFlag2 (s.sec k).cr })
  | key (c : Byte) (hk : k = .a) (hi : keyAccepted s i c)
      (h : t.sec k = { s.sec k with
        inReg := latchedCode c
        cr := setFlag1 (s.sec k).cr
        c1 := .fall
        c2 := raisedLine (s.cfgOf k).c2Mode (s.sec k).c2 })
  | reset (hi : isSystemReset i = true) (h : t.sec k = PiaSection.afterReset s.cfg.resetLine)

theorem sectionEffect_busRead {addr : Addr} {readOnly : Bool} (hi : i ∈ busReadRows addr readOnly) :
    SectionEffect s i (busRead addr s) k := by
  rcases busRead_cases s addr with ⟨-, v, -, h⟩ | ⟨j, hr, h⟩ | ⟨j, -, h⟩ | ⟨-, h⟩ <;> rw [h]
  · exact .kept (by simp)
  · by_cases hkj : k = j
    · subst hkj; exact .readData addr readOnly hi hr (by simp)
    · exact .kept (by simp [hkj])
  · exact .kept (by simp)
  · exact .kept (by simp)

theorem sectionEffect_busWrite {addr : Addr} {data : Byte} (hi : i ∈ busWriteRows addr data) :
    SectionEffect s i (busWrite addr data s) k := by
  rcases busWrite_cases s addr data with
    ⟨-, roms, -, -, h⟩ | ⟨j, hr, hp, h⟩ | ⟨j, hr, hp, h⟩ | ⟨j, hr, h⟩ | ⟨-, h⟩ <;> rw [h]
  · exact .kept (by simp)
  · by_cases hkj : k = j
    · subst hkj; exact .writeOut addr data hi hr hp (by simp [piaWriteOut_sec])
    · exact .kept (by simp [piaWriteOut_sec, hkj])
  · by_cases hkj : k = j
    · subst hkj; exact .writeDdr addr data hi hr hp (by simp)
    · exact .kept (by simp [hkj])
  · by_cases hkj : k = j
    · subst hkj; exact .writeControl addr data hi hr (by simp [piaWriteControl_sec])
    · exact .kept (by simp [piaWriteControl_sec, hkj])
  · exact .kept (by simp)

theorem sectionEffect_setC1 (sig : Signal) : SectionEffect s (.piaSetC1 j sig) ((setC1 j sig s).give .nothing) k := by
  by_cases hkj : k = j
  · subst hkj
    by_cases hedge : sig ≠ (s.sec k).c1 ∧ sig = (s.cfgOf k).c1Edge
    · obtain ⟨hne, rfl⟩ := hedge
      exact .edge1 rfl hne.symm (by simp [setC1_sec, hne])
    · exact .line1 sig rfl (by rw [State.give_sec, setC1_sec, if_pos rfl, if_neg hedge])
  · exact .kept (by simp [setC1_sec, hkj])

theorem sectionEffect_setC2 (sig : Signal) : SectionEffect s (.piaSetC2 j sig) ((setC2 j sig s).give .nothing) k := by
  by_cases hkj : k = j
  · subst hkj
    rcases setC2_spec s k sig with ⟨en, hm, hne, h⟩ | h <;> rw [h]
    · exact .edge2 sig en rfl hm hne.symm (by rw [State.give_sec, State.sec_setTrace, State.setSec_sec_same])
    · exact .line2 sig rfl (by simp)
  · rcases setC2_spec s j sig with ⟨en, -, -, h⟩ | h <;> rw [h]
    · exact .kept (by rw [State.give_sec, State.sec_setTrace, State.setSec_sec, if_neg hkj])
    · exact .kept (by simp [hkj])

theorem sectionEffect_strobeIf {code : Option Byte} (hi : ∀ c, code = some c → keyAccepted s i c) :
    SectionEffect s i ((strobeIf code s).give .nothing) k := by
  cases code with
  | none => exact .kept (by simp [strobeIf])
  | some c =>
    by_cases hk : k = .a
    · subst hk; exact .key c rfl (hi c rfl) (by rw [State.give_sec, strobeIf, strobe_sec, if_pos rfl]; rfl)
    · exact .kept (by simp [strobeIf, strobe_sec, hk])

/-- What every operation does to a section. -/
theorem sectionEffect_of_exec (h : exec i s = .next t) : SectionEffect s i t k := by
  rcases exec_cases s h with ⟨addr, ro, hi, rfl⟩ | ⟨addr, data, hi, rfl⟩ | ⟨hi, r, rfl⟩ | ⟨hi, term, rfl⟩ |
    ⟨j, v, rfl, rfl⟩ | ⟨j, sig, rfl, rfl⟩ | ⟨j, sig, rfl, rfl⟩ | ⟨key, shift, rfl, rfl⟩ | ⟨es, rfl, rfl⟩ |
    ⟨n, addr, data, rfl, hw⟩ | ⟨rfl, rfl⟩ | ⟨rfl, rfl⟩ | ⟨rfl, hv, rfl⟩ | ⟨rfl, rfl⟩
  · exact sectionEffect_busRead hi
  · exact sectionEffect_busWrite hi
  · exact .kept (by simp)
  · exact .kept (by simp)
  · by_cases hkj : k = j
    · subst hkj; exact .setIn v rfl (by simp [setIn_sec])
    · exact .kept (by simp [setIn_sec, hkj])
  · exact sectionEffect_setC1 sig
  · exact sectionEffect_setC2 sig
  · exact sectionEffect_strobeIf fun c hc => .inl ⟨key, shift, rfl, hc⟩
  · exact sectionEffect_strobeIf fun c hc => .inr ⟨es, rfl, hc⟩
  · rcases image_claims_or_not s n addr with ⟨img, hn, hc⟩ | hno
    · rw [exec_romProbeWr_claimed data hn hc] at hw; cases hw; exact .kept (by simp)
    · rw [exec_romProbeWr_rejected data hno] at hw; cases hw; exact .kept (by simp)
  · exact .kept (by simp)
  · exact .kept (by simp [busReset])
  · exact .reset rfl (by cases k <;> rfl)
  · exact .reset rfl (by cases k <;> rfl)

end Sys2Proof.Machine

open Sys2Proof Sys2Proof.Machine in
/-- Settles O49: of all that can happen to a section only a data-port read and a reset clear a flag, and both clear both. -/
theorem flagsAreClearedOnlyByADataPortReadOrReset : Obligations.FlagsAreClearedOnlyByADataPortReadOrReset := by
  intro i s t k h hcleared
  cases sectionEffect_of_exec (k := k) h with
  | readData addr ro hi hr h => exact ⟨.inr ⟨addr, ro, hi, hr⟩, by simp [h], by simp [h]⟩
  | reset hi h => exact ⟨.inl hi, by simp [h], by simp [h]⟩
  | kept h => simp [h] at hcleared
  | writeOut addr data hi hr hp h => simp [h] at hcleared
  | writeDdr addr data hi hr hp h => simp [h] at hcleared
  | writeControl addr data hi hr h => simp [h] at hcleared
  | setIn v hi h => simp [h] at hcleared
  | line1 sig hi h => simp [h] at hcleared
  | edge1 hi hne h => simp [h] at hcleared
  | line2 sig hi h => simp [h] at hcleared
  | edge2 edge en hi hm hne h => simp [h] at hcleared
  | key c hk hi h => simp [h] at hcleared

open Sys2Proof Sys2Proof.Machine in
/-- Settles O50: of all that can happen to a section only an active edge of its line, and for flag 1 of section A an
accepted key, sets a flag. -/
theorem flagsAreSetOnlyByAMatchingTransition : Obligations.FlagsAreSetOnlyByAMatchingTransition := by
  intro i s t k h
  cases sectionEffect_of_exec (k := k) h with
  | edge1 hi hne h => exact ⟨fun _ _ => .inl ⟨hi, hne⟩, fun hf ht => by simp [h, hf] at ht⟩
  | edge2 edge en hi hm hne h => exact ⟨fun hf ht => by simp [h, hf] at ht, fun _ _ => ⟨edge, en, hm, hne, hi⟩⟩
  | key c hk hi h =>
    refine ⟨fun _ _ => .inr ⟨hk, ?_⟩, fun hf ht => by simp [h, hf] at ht⟩
    rcases hi with ⟨key, shift, hi, hc⟩ | ⟨es, hi, hc⟩
    · exact .inl ⟨key, shift, c, hi, hc⟩
    · exact .inr ⟨es, c, hi, hc⟩
  | kept h => simp_all
  | readData addr ro hi hr h => simp_all
  | writeOut addr data hi hr hp h => simp_all
  | writeDdr addr data hi hr hp h => simp_all
  | writeControl addr data hi hr h => simp_all
  | setIn v hi h => simp_all
  | line1 sig hi h => simp_all
  | line2 sig hi h => simp_all
  | reset hi h => simp_all

open Sys2Proof Sys2Proof.Machine in
/-- Settles O51: each register has its own case among what can happen to a section, and no other case touches it. -/
theorem registersAreWrittenOnlyByTheirOwnOperations : Obligations.RegistersAreWrittenOnlyByTheirOwnOperations := by
  intro i s t k h hreset
  cases sectionEffect_of_exec (k := k) h with
  | kept h => simp [h]
  | readData addr ro hi hr h => simp [h]
  | writeOut addr data hi hr hp h => exact ⟨fun _ => ⟨addr, data, hi, hr, hp, by rw [h]⟩, by simp [h]⟩
  | writeDdr addr data hi hr hp h => exact ⟨by simp [h], fun _ => ⟨addr, data, hi, hr, hp, by rw [h]⟩, by simp [h]⟩
  | writeControl addr data hi hr h =>
    exact ⟨by simp [h], by simp [h], fun _ => ⟨addr, data, hi, hr⟩, by simp [h], by simp [h]⟩
  | setIn v hi h => exact ⟨by simp [h], by simp [h], by simp [h], fun _ => .inl ⟨v, hi⟩, by simp [h]⟩
  | line1 sig hi h => exact ⟨by simp [h], by simp [h], by simp [h], by simp [h], fun _ => .inl ⟨sig, hi⟩⟩
  | edge1 hi hne h => exact ⟨by simp [h], by simp [h], by simp [h], by simp [h], fun _ => .inl ⟨_, hi⟩⟩
  | line2 sig hi h => simp [h]
  | edge2 edge en hi hm hne h => simp [h]
  | key c hk hi h =>
    exact ⟨by simp [h], by simp [h], by simp [h], fun _ => .inr ⟨hk, hi.isKey⟩, fun _ => .inr ⟨hk, hi.isKey⟩⟩
  | reset hi h => simp [hi] at hreset

open Sys2Proof Sys2Proof.Machine in
/-- Settles O52: line 2 is touched by its own assignment, a port write of section B, a control write and an active edge of
line 1, and each of these moves it as the configuration says. -/
theorem controlLine2MovesOnlyAsConfigured : Obligations.ControlLine2MovesOnlyAsConfigured := by
  intro i s t k h hreset hmoved
  cases sectionEffect_of_exec (k := k) h with
  | line2 sig hi h => left; rw [h]; exact hi
  | edge2 edge en hi hm hne h => left; rw [h]; exact hi
  | writeControl addr data hi hr h =>
    have hc2 : (t.sec k).c2 = manualLine (t.cfgOf k).c2Mode (s.sec k).c2 := congrArg PiaSection.c2 h
    rw [hc2] at hmoved
    exact .inr (.inl ⟨addr, data, hi, hr, hc2 ▸ manualLine_ne hmoved⟩)
  | edge1 hi hne h =>
    have hc2 : (t.sec k).c2 = raisedLine (s.cfgOf k).c2Mode (s.sec k).c2 := congrArg PiaSection.c2 h
    rw [hc2] at hmoved ⊢
    obtain ⟨hm, hrise⟩ := raisedLine_ne hmoved
    exact .inr (.inr (.inl ⟨hm, hrise, .inl hi⟩))
  | key c hk hi h =>
    have hc2 : (t.sec k).c2 = raisedLine (s.cfgOf k).c2Mode (s.sec k).c2 := congrArg PiaSection.c2 h
    rw [hc2] at hmoved ⊢
    obtain ⟨hm, hrise⟩ := raisedLine_ne hmoved
    exact .inr (.inr (.inl ⟨hm, hrise, .inr ⟨hk, hi.isKey⟩⟩))
  | writeOut addr data hi hr hp h =>
    have hc2 : (t.sec k).c2 = portWriteLine k (s.cfgOf k).c2Mode (s.sec k).c2 := congrArg PiaSection.c2 h
    rw [hc2] at hmoved
    obtain ⟨rfl, hm⟩ := portWriteLine_ne hmoved
    rw [← hc2] at hm
    exact .inr (.inr (.inr ⟨rfl, addr, data, hi, hr, hp, hm⟩))
  | kept h => simp [h] at hmoved
  | readData addr ro hi hr h => simp [h] at hmoved
  | writeDdr addr data hi hr hp h => simp [h] at hmoved
  | setIn v hi h => simp [h] at hmoved
  | line1 sig hi h => simp [h] at hmoved
  | reset hi h => simp [hi] at hreset

end

section
/-! PROOF. Bus reads, bus writes and the inspection path, by the store that answers the access (41_bus.md, 40_pia.md). -/

namespace Sys2Proof.Machine

variable (s : State) {addr : Addr} {k : Section}

/-! ## The images -/

/-- The first image that claims the address answers the read (41_bus.md R113). -/
theorem busRead_of_first {before after : List RomImage} {img : RomImage} (hrom : s.rom = before ++ img :: after)
    (hb : ∀ j ∈ before, claims s.cfg.romVectorTruncate j addr = false)
    (hc : claims s.cfg.romVectorTruncate img addr = true) :
    busRead addr s = s.give (.byte (img.bytes[addr.toNat - img.base.toNat]'(claims_inside hc))) := by
  have hr := romRead_first (after := after) hb hc
  rw [← hrom, probeRead_of_claims hc] at hr
  simp only [busRead, hr]

/-- It takes the write (41_bus.md R114). -/
theorem busWrite_of_first {before after : List RomImage} {img : RomImage} (hrom : s.rom = before ++ img :: after)
    (hb : ∀ j ∈ before, claims s.cfg.romVectorTruncate j addr = false)
    (hc : claims s.cfg.romVectorTruncate img addr = true) (data : Byte) :
    busWrite addr data s =
      (s.setRom (before ++ storeInImage s.cfg.romWritable img addr data :: after)).give .nothing := by
  have hw := romWrite_first (w := s.cfg.romWritable) (data := data) (after := after) hb hc
  rw [← hrom] at hw
  simp only [busWrite, hw]

/-! ## The PIA -/

theorem clearFlags_clearFlags (cr : Byte) : clearFlags (clearFlags cr) = clearFlags cr := by revert cr; decide

/-- The port value does not depend on the control register (40_pia.md R90). -/
theorem port_setSec_cr (cr : Byte) : (s.setSec k { s.sec k with cr := cr }).port k = s.port k := by
  rw [State.port_setSec_same]; rfl

/-- With every line an input the port is the input register, with every line an output the output register. -/
theorem portOf_inputs (outReg inReg : Byte) : portOf outReg inReg 0x00 = inReg := by
  have h : inReg &&& BitVec.allOnes 8 = inReg := BitVec.and_allOnes
  simpa [portOf] using h
theorem portOf_outputs (outReg inReg : Byte) : portOf outReg inReg 0xFF = outReg := by
  have h : outReg &&& BitVec.allOnes 8 = outReg := BitVec.and_allOnes
  simpa [portOf] using h

/-- A section is replaced whatever was given back. -/
theorem give_setSec (r : Result) (p : PiaSection) : (s.give r).setSec k p = (s.setSec k p).give r := by cases k <;> rfl

/-- A second data-port read finds the flags clear and gives the same byte (40_pia.md R92). -/
theorem piaReadData_piaReadData : piaReadData k (piaReadData k s) = piaReadData k s := by
  simp [piaReadData_spec, give_setSec, clearFlags_clearFlags, port_setSec_cr]

/-- A data write reaches the direction register while write-port mode is clear (40_pia.md R95). -/
theorem busWrite_ddr (h : s.reachesPia addr (dataSel k)) (hp : (s.cfgOf k).portMode = false) (data : Byte) :
    busWrite addr data s = (s.setSec k { s.sec k with ddr := data }).give .nothing := by
  rw [busWrite_of_pia s addr h]; simp [piaWrite, hp, piaWriteDdr]

/-- A data write reaches the port in write-port mode (40_pia.md R94). -/
theorem busWrite_port (h : s.reachesPia addr (dataSel k)) (hp : (s.cfgOf k).portMode = true) (data : Byte) :
    busWrite addr data s = (piaWriteOut k data s).give .nothing := by
  rw [busWrite_of_pia s addr h]; simp [piaWrite, hp]

/-! ## The inspection path -/

theorem piaPeek_dataSel : piaPeek (dataSel k) s = s.port k := by simp [piaPeek]
theorem piaPeek_controlSel : piaPeek (controlSel k) s = (s.sec k).cr := by simp [piaPeek]

/-- Where the images answer a read, an inspection gives the same byte. -/
theorem busPeek_of_romRead {v : Byte} (h : romRead s.cfg.romVectorTruncate s.rom addr = some v) : busPeek addr s = v := by
  rcases firstClaim_spec addr s.cfg.romVectorTruncate s.rom 0 with ⟨-, hn⟩ | ⟨j, img, hf, hj, hr, -⟩
  · rw [hn] at h; cases h
  · rw [h] at hr
    simp [busPeek, State.resolve, resolve, hf, hj, ← hr]

/-- Where no image claims, an inspection resolves to the window or to RAM. -/
theorem resolve_of_not_claimed (h : s.romClaims addr = false) :
    s.resolve addr = if inWindow addr then .pia (selector addr) else .ram addr := by
  have hn := (romRead_eq_none_iff s.cfg.romVectorTruncate s.rom addr).2 h
  rcases firstClaim_spec addr s.cfg.romVectorTruncate s.rom 0 with ⟨hf, -⟩ | ⟨j, img, -, -, hr, hc⟩
  · simp only [State.resolve, resolve, hf]
  · rw [hn, List.getElem?_eq_getElem (claims_inside hc)] at hr; cases hr

theorem busPeek_of_pia {sel : BitVec 2} (h : s.reachesPia addr sel) : busPeek addr s = piaPeek sel s := by
  obtain ⟨hw, rfl⟩ := (windowRow_iff addr sel).1 h.2
  simp [busPeek, resolve_of_not_claimed s h.1, hw]

theorem busPeek_of_ram (h : s.reachesRam addr) : busPeek addr s = s.ramByte addr := by
  simp [busPeek, resolve_of_not_claimed s h.1, h.2]

/-- An inspection gives what a read would give (41_bus.md R118). -/
theorem busRead_result (addr : Addr) : (busRead addr s).result = .byte (busPeek addr s) := by
  rcases busRead_cases s addr with ⟨-, v, hv, h⟩ | ⟨k, hr, h⟩ | ⟨k, hr, h⟩ | ⟨hr, h⟩ <;> rw [h, State.give_result]
  · rw [busPeek_of_romRead s hv]
  · rw [busPeek_of_pia s hr, piaPeek_dataSel]
  · rw [busPeek_of_pia s hr, piaPeek_controlSel]
  · rw [busPeek_of_ram s hr]

theorem exec_busPeek (addr : Addr) : exec (.busPeek addr) s = .next (s.give (.byte (busPeek addr s))) := rfl
theorem exec_piaPeek (sel : BitVec 2) : exec (.piaPeek sel) s = .next (s.give (.byte (piaPeek sel s))) := rfl

end Sys2Proof.Machine

open Sys2Proof Sys2Proof.Machine in
/-- Settles O10: every row is the bus read, and the first claiming image answers it. -/
theorem busReadOfAClaimedAddressGivesTheFirstImagesByte :
    Obligations.BusReadOfAClaimedAddressGivesTheFirstImagesByte := by
  intro s addr readOnly i before after img hi hrom hb hc
  refine ⟨_, List.getElem?_eq_getElem (claims_inside hc), ?_⟩
  rw [exec_busReadRows s addr hi, busRead_of_first s hrom hb hc]
  rfl

open Sys2Proof Sys2Proof.Machine in
/-- Settles O11: the read clears both flags and gives the port value, on which neither the flags nor a second read bear. -/
theorem dataPortReadClearsBothFlagsAndReturnsThePort : Obligations.DataPortReadClearsBothFlagsAndReturnsThePort := by
  intro s addr readOnly i k hi hr
  have hread : exec i s = .next (piaReadData k s) := by
    rw [exec_busReadRows s addr hi, busRead_of_pia s addr hr, piaRead_dataSel]
  refine ⟨piaReadData k s, s.port k, hread, piaReadData_spec s k, rfl, fun h => ?_, fun h => ?_, ?_, ?_⟩
  · rw [State.port, h, portOf_inputs]
  · rw [State.port, h, portOf_outputs]
  · rw [piaReadData_spec, State.give_irqLevel, State.irqLevel_setSec_same, irqLevelOf_clearFlags]
  · have hr' : (piaReadData k s).reachesPia addr (dataSel k) := by
      rw [piaReadData_spec]; exact ⟨by simpa using hr.1, hr.2⟩
    rw [exec_busReadRows _ addr hi, busRead_of_pia _ addr hr', piaRead_dataSel, piaReadData_piaReadData]

open Sys2Proof Sys2Proof.Machine in
/-- Settles O13: every row is the bus read, which gives the RAM byte where nothing before RAM answers. -/
theorem ramReadReturnsTheByteAndChangesNothing : Obligations.RamReadReturnsTheByteAndChangesNothing := by
  intro s addr readOnly i hi hr
  rw [exec_busReadRows s addr hi, busRead_of_ram s addr hr]
  rfl

open Sys2Proof Sys2Proof.Machine in
/-- Settles O14: store by store, the byte inspected is the one a read gives; a selector of the PIA is inspected by what
it selects. -/
theorem peeksGiveTheByteAReadWouldGiveAndChangeNothing : Obligations.PeeksGiveTheByteAReadWouldGiveAndChangeNothing := by
  constructor
  · intro s addr readOnly i hi
    exact ⟨_, _, exec_busPeek s addr, exec_busReadRows s addr hi, busRead_result s addr⟩
  · intro s k
    constructor
    · rw [exec_piaPeek, piaPeek_dataSel]; rfl
    · rw [exec_piaPeek, piaPeek_controlSel]; rfl

open Sys2Proof Sys2Proof.Machine in
/-- Settles O15: every row is the bus write, and the first claiming image takes it, storing only if ROM is writable. -/
theorem busWriteOfAClaimedAddressStopsAtTheFirstImage : Obligations.BusWriteOfAClaimedAddressStopsAtTheFirstImage := by
  intro s addr data i before after img hi hrom hb hc
  rw [exec_busWriteRows s addr hi, busWrite_of_first s hrom hb hc]
  constructor
  · intro hw
    rw [hw, storeInImage_readOnly, ← hrom]; rfl
  · intro hw
    rw [hw]; rfl

open Sys2Proof Sys2Proof.Machine in
/-- Settles O16: without write-port mode the data register's write is the direction register's. -/
theorem dataWriteOutsidePortModeSetsTheDirectionRegister :
    Obligations.DataWriteOutsidePortModeSetsTheDirectionRegister := by
  intro s addr data i k hi hr hp
  rw [exec_busWriteRows s addr hi, busWrite_ddr s hr hp]
  rfl

open Sys2Proof Sys2Proof.Machine in
/-- Settles O17: the port write of section A is a store and its callback. -/
theorem portAWriteLatchesAndInvokesItsCallback : Obligations.PortAWriteLatchesAndInvokesItsCallback := by
  intro s addr data i hi hr hp
  rw [exec_busWriteRows s addr hi, busWrite_port (k := .a) s hr hp, piaWriteOut_a]
  rfl

open Sys2Proof Sys2Proof.Machine in
/-- Settles O18: the port write of section B is a store, its callback with the byte queued, and the strobe of CB2. -/
theorem portBWriteLatchesQueuesAndMovesCb2 : Obligations.PortBWriteLatchesQueuesAndMovesCb2 := by
  rintro s addr data v i hi hr hp rfl
  refine ⟨(s.term.enqueue s.cfg.queueCap (portOf data s.secB.inReg s.secB.ddr)).queue, ?_, fun hroom => ?_⟩
  · rw [exec_busWriteRows s addr hi, busWrite_port (k := .b) s hr hp, piaWriteOut_b, Terminal.enqueue_spec]
    rfl
  · rw [Terminal.enqueue_of_room hroom]
    rfl

open Sys2Proof Sys2Proof.Machine in
/-- Settles O19: the control write stores, drives a manual level and evaluates, in this order. -/
theorem controlWriteStoresDrivesAndEvaluates : Obligations.ControlWriteStoresDrivesAndEvaluates := by
  rintro s addr data cr' cfg' i k hi hr rfl rfl
  rw [exec_busWriteRows_control s hi hr, piaWriteControl_spec]
  rfl

open Sys2Proof Sys2Proof.Machine in
/-- Settles O21: the store reads back by the canonical form, leaves every other byte, and leaves what answers the
address. -/
theorem ramWriteStoresOneByteAndReadsBack : Obligations.RamWriteStoresOneByteAndReadsBack := by
  intro s addr data readOnly i j hi hj hr hwf
  have hsame : ((s.storeRam addr data).give .nothing).ramByte addr = data := storeRam_ramByte_same addr data hwf
  refine ⟨(s.storeRam addr data).give .nothing, ?_, rfl, hsame, fun a ha => storeRam_ramByte_other data ha, ?_⟩
  · rw [exec_busWriteRows s addr hi, busWrite_of_ram s addr hr]
  · have hr' : ((s.storeRam addr data).give .nothing).reachesRam addr := hr
    rw [exec_busReadRows _ addr hj, busRead_of_ram _ addr hr', hsame]
    rfl

open Sys2Proof.Machine in
/-- Settles O22: the operation is one event and one count. -/
theorem busClkCountsAndAdvancesTheCpu : Obligations.BusClkCountsAndAdvancesTheCpu :=
  fun _ => rfl

end

section
/-! PROOF. The probes of an image and the queries of the images' extent (41_bus.md R110 to R112, R117). -/

namespace Sys2Proof.Machine

variable {s : State} {trunc : Bool} {img : RomImage} {roms : List RomImage}

theorem exec_romProbeRd (n : Nat) (addr : Addr) :
    exec (.romProbeRd n addr) s =
      .next (s.give (.probe (s.rom[n]?.bind fun img => probeRead s.cfg.romVectorTruncate img addr))) := rfl

/-- The images that claim something (41_bus.md R117). -/
theorem mem_nonEmptyImages : img ∈ nonEmptyImages trunc roms ↔ img ∈ roms ∧ 0 < effLen trunc img := by
  simp [nonEmptyImages]

/-- An address is claimed when it lies in the range of an image that claims something. -/
theorem romClaims_iff (addr : Addr) :
    romClaims trunc roms addr = true ↔
      ∃ img ∈ nonEmptyImages trunc roms, img.base.toNat ≤ addr.toNat ∧ addr.toNat < img.base.toNat + effLen trunc img := by
  simp only [romClaims, List.any_eq_true, claims_iff, mem_nonEmptyImages]
  constructor
  · rintro ⟨img, hm, h1, h2⟩; exact ⟨img, ⟨hm, by omega⟩, h1, h2⟩
  · rintro ⟨img, ⟨hm, -⟩, h⟩; exact ⟨img, hm, h⟩

/-- In a well-formed image every number of its range is an address, which it claims (41_bus.md R119). -/
theorem exists_claimed (hv : roms.all imageValid = true) (hm : img ∈ nonEmptyImages trunc roms) {n : Nat}
    (h1 : img.base.toNat ≤ n) (h2 : n < img.base.toNat + effLen trunc img) :
    ∃ a : Addr, a.toNat = n ∧ romClaims trunc roms a = true := by
  have himg : imageValid img = true := List.all_eq_true.1 hv img (mem_nonEmptyImages.1 hm).1
  have hlen := effLen_le trunc img
  have hn : (BitVec.ofNat 16 n).toNat = n := by
    simp only [imageValid, decide_eq_true_eq] at himg
    rw [BitVec.toNat_ofNat]; omega
  exact ⟨BitVec.ofNat 16 n, hn, (romClaims_iff _).2 ⟨img, hm, by rwa [hn], by rwa [hn]⟩⟩

/-- No address is claimed exactly where no image claims something. -/
theorem nonEmptyImages_eq_nil_iff (hv : roms.all imageValid = true) :
    nonEmptyImages trunc roms = [] ↔ ∀ a, romClaims trunc roms a = false := by
  constructor
  · intro h a
    by_contra hc
    obtain ⟨img, hm, -⟩ := (romClaims_iff a).1 (by simpa using hc)
    simp [h] at hm
  · intro h
    by_contra hne
    obtain ⟨img, hm⟩ := List.exists_mem_of_ne_nil _ hne
    obtain ⟨a, -, ha⟩ := exists_claimed hv hm (Nat.le_refl _) (Nat.lt_add_of_pos_right (mem_nonEmptyImages.1 hm).2)
    simp [h a] at ha

/-- The lowest address claimed (41_bus.md R117). -/
theorem romLow_spec (hv : roms.all imageValid = true) {n : Nat} (h : romLow trunc roms = some n) :
    (∃ a : Addr, a.toNat = n ∧ romClaims trunc roms a = true) ∧ ∀ a, romClaims trunc roms a = true → n ≤ a.toNat := by
  obtain ⟨hmem, hmin⟩ := List.min?_eq_some_iff.1 h
  obtain ⟨img, hm, rfl⟩ := List.mem_map.1 hmem
  refine ⟨exists_claimed hv hm (Nat.le_refl _) (Nat.lt_add_of_pos_right (mem_nonEmptyImages.1 hm).2), fun a ha => ?_⟩
  obtain ⟨img', hm', hle, -⟩ := (romClaims_iff a).1 ha
  exact (hmin _ (List.mem_map_of_mem hm')).trans hle

/-- The highest address claimed (41_bus.md R117). -/
theorem romHigh_spec (hv : roms.all imageValid = true) {n : Nat} (h : romHigh trunc roms = some n) :
    (∃ a : Addr, a.toNat = n ∧ romClaims trunc roms a = true) ∧ ∀ a, romClaims trunc roms a = true → a.toNat ≤ n := by
  obtain ⟨hmem, hmax⟩ := List.max?_eq_some_iff.1 h
  obtain ⟨img, hm, rfl⟩ := List.mem_map.1 hmem
  have hpos := (mem_nonEmptyImages.1 hm).2
  refine ⟨exists_claimed hv hm (by omega) (by omega), fun a ha => ?_⟩
  obtain ⟨img', hm', -, hlt⟩ := (romClaims_iff a).1 ha
  have := hmax _ (List.mem_map_of_mem hm')
  omega

end Sys2Proof.Machine

open Sys2Proof Sys2Proof.Machine in
/-- Settles O24: the lists the queries take the extremes of hold the first and the last address of each image that claims
something. -/
theorem romLowAndHighAreTheExtremeClaimedAddresses : Obligations.RomLowAndHighAreTheExtremeClaimedAddresses := by
  intro s hv
  refine ⟨romLow s.cfg.romVectorTruncate s.rom, romHigh s.cfg.romVectorTruncate s.rom, rfl, rfl, ?_, ?_,
    fun n h => romLow_spec hv h, fun n h => romHigh_spec hv h⟩
  · rw [romLow, List.min?_eq_none_iff, List.map_eq_nil_iff, nonEmptyImages_eq_nil_iff hv]; rfl
  · rw [romHigh, List.max?_eq_none_iff, List.map_eq_nil_iff, nonEmptyImages_eq_nil_iff hv]; rfl

open Sys2Proof Sys2Proof.Machine in
/-- Settles O25: the probe is the image's own answer. -/
theorem probeReadGivesTheImagesByteOrNotMine : Obligations.ProbeReadGivesTheImagesByteOrNotMine := by
  intro s n img addr hn
  constructor
  · intro hc
    refine ⟨_, List.getElem?_eq_getElem (claims_inside hc), ?_⟩
    rw [exec_romProbeRd, hn, Option.bind_some, probeRead_of_claims hc]; rfl
  · intro hc
    rw [exec_romProbeRd, hn, Option.bind_some, probeRead_of_not_claims hc]; rfl

open Sys2Proof Sys2Proof.Machine in
/-- Settles O26: the probe is accepted where the image claims, and its store keeps an image that is not writable. -/
theorem probeWriteIsAcceptedWhereClaimed : Obligations.ProbeWriteIsAcceptedWhereClaimed := by
  intro s n addr data
  refine ⟨fun img hn hc => ?_, fun img hn hc hw => ?_, fun img hn hc hw => ?_, fun hn => ⟨?_, ?_⟩⟩
  · rw [exec_romProbeWr_rejected data fun img' hn' => by rw [hn] at hn'; cases hn'; exact hc]; rfl
  · rw [exec_romProbeWr_claimed data hn hc, hw, set_storeInImage_readOnly addr data hn]; rfl
  · rw [exec_romProbeWr_claimed data hn hc, hw]; rfl
  · rw [exec_romProbeWr_rejected data fun img hn' => by rw [hn] at hn'; cases hn']; rfl
  · rw [exec_romProbeRd, hn]; rfl

end

section
/-! PROOF. An operation neither reads RAM and the terminal but where it reaches them, nor the result of the operation
before: so shadowed RAM is never observed (20_memory.md section 3), and TERM.STEP commutes with the operations that are
not the terminal's own (42_terminal.md section 4). -/

namespace Sys2Proof.Machine

variable {s t : State} {i : Instr} {k : Section} {addr : Addr}

/-- The state with another RAM, another terminal and another result. -/
def State.elsewhere (s : State) (m : Memory) (x : Terminal) (r : Result) : State :=
  { s with ram := m, term := x, result := r }

/-- A function of the state that reads neither RAM nor the terminal nor the result, and of these three assigns the
terminal only, by giving it bytes. -/
def Blind (s : State) (f : State → State) : Prop :=
  ∃ bytes, ∀ m x r, f (s.elsewhere m x r) = (f s).elsewhere m (x.receive s.cfg.queueCap bytes) r

@[simp] theorem elsewhere_sec (m : Memory) (x : Terminal) (r : Result) : (s.elsewhere m x r).sec k = s.sec k := by
  cases k <;> rfl
@[simp] theorem elsewhere_cfgOf (m : Memory) (x : Terminal) (r : Result) : (s.elsewhere m x r).cfgOf k = s.cfgOf k := by
  cases k <;> rfl

/-- What answers an address does not depend on RAM, terminal and result. -/
theorem State.reachesPia.elsewhere {sel : BitVec 2} (h : s.reachesPia addr sel) (m : Memory) (x : Terminal) (r : Result) :
    (s.elsewhere m x r).reachesPia addr sel := h
theorem State.reachesRam.elsewhere (h : s.reachesRam addr) (m : Memory) (x : Terminal) (r : Result) :
    (s.elsewhere m x r).reachesRam addr := h

/-! ## The operations of the PIA -/

theorem blind_self : Blind s fun s => s := ⟨[], fun _ _ _ => rfl⟩

theorem blind_setSec (p : PiaSection) : Blind s fun s => s.setSec k p := ⟨[], fun _ _ _ => by cases k <;> rfl⟩

theorem blind_setIn (v : Byte) : Blind s (setIn k v) := ⟨[], fun _ _ _ => by cases k <;> rfl⟩

theorem blind_piaWriteOut (data : Byte) : Blind s (piaWriteOut k data) := by
  cases k with
  | a => exact ⟨[], fun m x r => by rw [piaWriteOut_a, piaWriteOut_a]; rfl⟩
  | b => exact ⟨[portOf data s.secB.inReg s.secB.ddr], fun m x r => by rw [piaWriteOut_b, piaWriteOut_b]; rfl⟩

theorem blind_piaWriteControl (data : Byte) : Blind s (piaWriteControl k data) :=
  ⟨[], fun m x r => by rw [piaWriteControl_spec, piaWriteControl_spec]; cases k <;> rfl⟩

theorem blind_setC1 (sig : Signal) : Blind s (setC1 k sig) := by
  refine ⟨[], fun m x r => ?_⟩
  rw [setC1_spec, setC1_spec, elsewhere_sec, elsewhere_cfgOf]
  split <;> cases k <;> rfl

theorem blind_setC2 (sig : Signal) : Blind s (setC2 k sig) := by
  refine ⟨[], fun m x r => ?_⟩
  simp only [setC2, elsewhere_sec, elsewhere_cfgOf]
  cases (s.cfgOf k).c2Mode with
  | input edge enabled =>
    dsimp only
    split
    · rw [activeC2_spec, activeC2_spec]; cases k <;> rfl
    · cases k <;> rfl
  | manual | handshake | pulse => cases k <;> rfl

theorem blind_strobe (c : Byte) : Blind s (strobe c) :=
  ⟨[], fun m x r => by rw [strobe_spec, strobe_spec]; rfl⟩

theorem blind_strobeIf (code : Option Byte) : Blind s (strobeIf code) := by
  cases code with
  | none => exact blind_self
  | some c => exact blind_strobe c

/-! ## Every operation -/

/-- The operation gives back what it does and changes what it does whatever RAM, terminal and earlier result are. -/
def BlindExec (s : State) (i : Instr) (t : State) : Prop :=
  ∃ bytes, ∀ m x r, exec i (s.elsewhere m x r) = .next (t.elsewhere m (x.receive s.cfg.queueCap bytes) t.result)

/-- A meaning that gives back a fixed result after a blind function is blind. -/
theorem Blind.exec {f : State → State} {q : Result} (hf : Blind s f)
    (h : ∀ m x r, exec i (s.elsewhere m x r) = .next ((f (s.elsewhere m x r)).give q)) :
    BlindExec s i ((f s).give q) := by
  obtain ⟨bytes, hb⟩ := hf
  exact ⟨bytes, fun m x r => by rw [h, hb]; rfl⟩

/-- So is a result of which RAM, terminal and earlier result are no part. -/
theorem blindExec_give {q : Result} (h : ∀ m x r, exec i (s.elsewhere m x r) = .next ((s.elsewhere m x r).give q)) :
    BlindExec s i (s.give q) :=
  blind_self.exec h

/-- A read that does not reach RAM. -/
theorem blindExec_busRead {readOnly : Bool} (hi : i ∈ busReadRows addr readOnly) (hram : ¬ s.reachesRam addr) :
    BlindExec s i (busRead addr s) := by
  rcases busRead_cases s addr with ⟨-, v, hv, h⟩ | ⟨k, hr, h⟩ | ⟨k, hr, h⟩ | ⟨hr, -⟩
  · rw [h]
    exact blindExec_give fun m x r => by
      rw [exec_busReadRows _ addr hi]; simp [busRead, State.elsewhere, hv]
  · rw [h]
    refine Blind.exec (blind_setSec _) fun m x r => ?_
    rw [exec_busReadRows _ addr hi, busRead_of_pia _ addr (hr.elsewhere m x r), piaRead_dataSel, piaReadData_spec, elsewhere_sec]
    cases k <;> rfl
  · rw [h]
    exact blindExec_give fun m x r => by
      rw [exec_busReadRows _ addr hi, busRead_of_pia _ addr (hr.elsewhere m x r), piaRead_controlSel, elsewhere_sec]
  · exact absurd hr hram

/-- A write that does not reach RAM. -/
theorem blindExec_busWrite {data : Byte} (hi : i ∈ busWriteRows addr data) (hram : ¬ s.reachesRam addr) :
    BlindExec s i (busWrite addr data s) := by
  rcases busWrite_cases s addr data with
    ⟨-, roms, hw, -, h⟩ | ⟨k, hr, hp, h⟩ | ⟨k, hr, hp, h⟩ | ⟨k, hr, h⟩ | ⟨hr, -⟩
  · rw [h]
    refine Blind.exec (f := fun s => s.setRom roms) ⟨[], fun _ _ _ => rfl⟩ fun m x r => ?_
    rw [exec_busWriteRows _ addr hi]; simp [busWrite, State.elsewhere, hw]
  · rw [h]
    refine Blind.exec (blind_piaWriteOut data) fun m x r => ?_
    rw [exec_busWriteRows _ addr hi, busWrite_port _ (hr.elsewhere m x r) (by rwa [elsewhere_cfgOf])]
  · rw [h]
    refine Blind.exec (blind_setSec _) fun m x r => ?_
    rw [exec_busWriteRows _ addr hi, busWrite_ddr _ (hr.elsewhere m x r) (by rwa [elsewhere_cfgOf]), elsewhere_sec]
  · rw [h]
    refine Blind.exec (blind_piaWriteControl data) fun m x r => ?_
    rw [exec_busWriteRows_control _ hi (hr.elsewhere m x r)]
  · exact absurd hr hram

/-- An inspection that does not reach RAM. -/
theorem blindExec_busPeek (hram : ¬ s.reachesRam addr) : BlindExec s (.busPeek addr) (s.give (.byte (busPeek addr s))) := by
  refine blindExec_give fun m x r => ?_
  rw [exec_busPeek]
  rcases busRead_cases s addr with ⟨-, v, hv, -⟩ | ⟨k, hr, -⟩ | ⟨k, hr, -⟩ | ⟨hr, -⟩
  · rw [busPeek_of_romRead s hv, busPeek_of_romRead (s.elsewhere m x r) hv]
  · rw [busPeek_of_pia s hr, busPeek_of_pia _ (hr.elsewhere m x r), piaPeek_dataSel, piaPeek_dataSel]; cases k <;> rfl
  · rw [busPeek_of_pia s hr, busPeek_of_pia _ (hr.elsewhere m x r), piaPeek_controlSel, piaPeek_controlSel, elsewhere_sec]
  · exact absurd hr hram

/-- A write probe. -/
theorem blindExec_romProbeWr {n : Nat} {data : Byte} (h : exec (.romProbeWr n addr data) s = .next t) :
    BlindExec s (.romProbeWr n addr data) t := by
  rcases image_claims_or_not s n addr with ⟨img, hn, hc⟩ | hno
  · rw [exec_romProbeWr_claimed data hn hc] at h
    cases h
    exact Blind.exec (f := fun s => s.setRom _) ⟨[], fun _ _ _ => rfl⟩ fun m x r => exec_romProbeWr_claimed data hn hc
  · rw [exec_romProbeWr_rejected data hno] at h
    cases h
    exact blindExec_give fun m x r => exec_romProbeWr_rejected data hno

/-- The operation is an access or an inspection that reaches RAM. -/
def reachesRamBy (s : State) (i : Instr) : Prop :=
  ∃ addr, s.reachesRam addr ∧
    ((∃ readOnly, i ∈ busReadRows addr readOnly) ∨ (∃ data, i ∈ busWriteRows addr data) ∨ i = .busPeek addr)

/-- A query that does not reach RAM. -/
theorem blindExec_query (hi : isQuery i = true) (hram : ¬ reachesRamBy s i) (h : exec i s = .next t) : BlindExec s i t := by
  cases i <;> cases hi
  case busPeek addr =>
    rw [exec_busPeek] at h
    cases h
    exact blindExec_busPeek fun hr => hram ⟨addr, hr, .inr (.inr rfl)⟩
  all_goals cases h; exact ⟨[], fun _ _ _ => rfl⟩

/-- Whatever is not the terminal's own, no reset, and does not reach RAM is blind. -/
theorem exec_blind (h : exec i s = .next t) (hi : isTerminalOp i = false) (hs : isSystemReset i = false)
    (hram : ¬ reachesRamBy s i) : BlindExec s i t := by
  rcases exec_cases s h with ⟨addr, ro, hi, rfl⟩ | ⟨addr, data, hi, rfl⟩ | ⟨hq, -⟩ | ⟨ht, -⟩ |
    ⟨k, v, rfl, rfl⟩ | ⟨k, sig, rfl, rfl⟩ | ⟨k, sig, rfl, rfl⟩ | ⟨key, shift, rfl, rfl⟩ | ⟨es, rfl, rfl⟩ |
    ⟨n, addr, data, rfl, hw⟩ | ⟨rfl, rfl⟩ | ⟨rfl, rfl⟩ | ⟨rfl, hv, rfl⟩ | ⟨rfl, rfl⟩
  · exact blindExec_busRead hi fun hr => hram ⟨addr, hr, .inl ⟨ro, hi⟩⟩
  · exact blindExec_busWrite hi fun hr => hram ⟨addr, hr, .inr (.inl ⟨data, hi⟩)⟩
  · exact blindExec_query hq hram h
  · rw [ht] at hi; cases hi
  · exact (blind_setIn v).exec fun m x r => rfl
  · exact (blind_setC1 sig).exec fun m x r => rfl
  · exact (blind_setC2 sig).exec fun m x r => rfl
  · exact (blind_strobeIf _).exec fun m x r => rfl
  · exact (blind_strobeIf _).exec fun m x r => rfl
  · exact blindExec_romProbeWr hw
  · exact ⟨[], fun _ _ _ => rfl⟩
  · exact ⟨[], fun _ _ _ => rfl⟩
  · cases hs
  · cases hs

/-- An operation that reaches RAM does not read the terminal or the result of the operation before, and keeps the
terminal. -/
theorem exec_reachesRam (hram : reachesRamBy s i) (h : exec i s = .next t) (x : Terminal) (r : Result) :
    t.term = s.term ∧ exec i (s.elsewhere s.ram x r) = .next (t.elsewhere t.ram x t.result) := by
  obtain ⟨addr, hr, ⟨ro, hi⟩ | ⟨data, hi⟩ | rfl⟩ := hram
  · rw [exec_busReadRows _ addr hi, busRead_of_ram _ addr hr] at h
    cases h
    rw [exec_busReadRows _ addr hi, busRead_of_ram _ addr (hr.elsewhere _ x r)]
    exact ⟨rfl, rfl⟩
  · rw [exec_busWriteRows _ addr hi, busWrite_of_ram _ addr hr] at h
    cases h
    rw [exec_busWriteRows _ addr hi, busWrite_of_ram _ addr (hr.elsewhere _ x r)]
    exact ⟨rfl, rfl⟩
  · rw [exec_busPeek, busPeek_of_ram _ hr] at h
    cases h
    rw [exec_busPeek, busPeek_of_ram _ (hr.elsewhere _ x r)]
    exact ⟨rfl, rfl⟩

/-- A blind operation keeps RAM, and the terminal takes its bytes. -/
theorem BlindExec.spec (hb : BlindExec s i t) (h : exec i s = .next t) :
    t.ram = s.ram ∧ ∃ bytes, t.term = s.term.receive s.cfg.queueCap bytes ∧
      ∀ m x r, exec i (s.elsewhere m x r) = .next (t.elsewhere m (x.receive s.cfg.queueCap bytes) t.result) := by
  obtain ⟨bytes, hb⟩ := hb
  have hself : exec i s = .next (t.elsewhere s.ram (s.term.receive s.cfg.queueCap bytes) t.result) :=
    hb s.ram s.term s.result
  rw [h, Host.Outcome.next.injEq] at hself
  exact ⟨by rw [hself]; rfl, bytes, by rw [hself]; rfl, hb⟩

/-! ## Shadowed RAM -/

/-- No operation but power-on changes which addresses reach RAM. -/
theorem reachesRam_of_exec (h : exec i s = .next t) (hp : i ≠ .sysPowerOn) (hr : t.reachesRam addr) : s.reachesRam addr := by
  obtain ⟨hcfg, -, hshape, -⟩ := tablesAndImageShapesNeverChange i s t h
  refine ⟨?_, hr.2⟩
  rw [State.romClaims, ← romClaims_of_shape _ (hshape hp), ← hcfg]
  exact hr.1

/-- States that agree but for shadowed RAM still do where an operation kept the RAM of both. -/
theorem agreeOffShadow_of_kept {m : Memory} (h : exec i s = .next t) (hp : i ≠ .sysPowerOn) (hram : t.ram = s.ram)
    (hbytes : ∀ addr, s.reachesRam addr → Memory.read m addr.toNat = s.ramByte addr) :
    AgreeOffShadow t { t with ram := m } := by
  refine ⟨rfl, fun addr hr => ?_⟩
  rw [State.ramByte, State.ramByte, hram]
  exact hbytes addr (reachesRam_of_exec h hp hr)

/-- An operation that reaches RAM observes the byte it reaches only. -/
theorem agreeOffShadow_of_reachesRam {m : Memory} (hs : Memory.wf s.ram = true) (hm : Memory.wf m = true)
    (hbytes : ∀ addr, s.reachesRam addr → Memory.read m addr.toNat = s.ramByte addr) (hram : reachesRamBy s i)
    (h : exec i s = .next t) :
    ∃ t', exec i (s.elsewhere m s.term s.result) = .next t' ∧ AgreeOffShadow t t' := by
  obtain ⟨addr, hr, ⟨ro, hi⟩ | ⟨data, hi⟩ | rfl⟩ := hram
  · rw [exec_busReadRows _ addr hi, busRead_of_ram _ addr hr] at h
    cases h
    have hv : (s.elsewhere m s.term s.result).ramByte addr = s.ramByte addr := hbytes addr hr
    rw [exec_busReadRows _ addr hi, busRead_of_ram _ addr (hr.elsewhere _ _ _), hv]
    exact ⟨_, rfl, rfl, hbytes⟩
  · rw [exec_busWriteRows _ addr hi, busWrite_of_ram _ addr hr] at h
    cases h
    rw [exec_busWriteRows _ addr hi, busWrite_of_ram _ addr (hr.elsewhere _ _ _)]
    refine ⟨_, rfl, rfl, fun a ha => ?_⟩
    rw [State.give_ramByte, State.give_ramByte]
    by_cases hne : a = addr
    · subst hne
      rw [storeRam_ramByte_same _ _ hs, storeRam_ramByte_same _ _ hm]
    · rw [storeRam_ramByte_other _ hne, storeRam_ramByte_other _ hne]
      exact hbytes a ha
  · rw [exec_busPeek, busPeek_of_ram _ hr] at h
    cases h
    have hv : (s.elsewhere m s.term s.result).ramByte addr = s.ramByte addr := hbytes addr hr
    rw [exec_busPeek, busPeek_of_ram _ (hr.elsewhere _ _ _), hv]
    exact ⟨_, rfl, rfl, hbytes⟩

/-- The terminal's own operations and SYS.RESET neither read nor write RAM. -/
theorem terminalOp_keeps_ram (hi : isTerminalOp i = true ∨ i = .sysReset) (h : exec i s = .next t) (m : Memory) :
    t.ram = s.ram ∧ exec i (s.elsewhere m s.term s.result) = .next { t with ram := m } := by
  rcases hi with hi | rfl
  · rcases exec_terminalOp hi h with ⟨v, rfl, rfl⟩ | ⟨rfl, rfl⟩ | ⟨rfl, rfl⟩ | ⟨rfl, rfl⟩ <;>
      exact ⟨rfl, rfl⟩
  · cases h; exact ⟨rfl, rfl⟩

theorem isSystemReset_iff : isSystemReset i = true ↔ i = .sysPowerOn ∨ i = .sysReset := by
  cases i <;> simp [isSystemReset]

/-- Power-on reads neither RAM nor the terminal nor the result. -/
theorem exec_sysPowerOn_elsewhere (m : Memory) (x : Terminal) (r : Result) :
    exec .sysPowerOn (s.elsewhere m x r) = exec .sysPowerOn s := by
  cases hv : configValid s.cfg
  · rw [exec_sysPowerOn_invalid hv, exec_sysPowerOn_invalid (s := s.elsewhere m x r) hv]
  · rw [exec_sysPowerOn_valid hv, exec_sysPowerOn_valid (s := s.elsewhere m x r) hv]; rfl

end Sys2Proof.Machine

open Sys2Proof Sys2Proof.Machine in
/-- Settles O58: power-on forgets RAM, an operation that reaches RAM observes that byte only, and every other operation is
blind to RAM. -/
theorem shadowedRamIsNeverObserved : Obligations.ShadowedRamIsNeverObserved := by
  intro i s t s' hs ht ⟨hframe, hbytes⟩ h
  obtain ⟨m, rfl⟩ : ∃ m, t = s.elsewhere m s.term s.result := ⟨t.ram, hframe⟩
  by_cases hp : i = .sysPowerOn
  · subst hp
    exact ⟨s', (exec_sysPowerOn_elsewhere m s.term s.result).trans h, rfl, fun _ _ => rfl⟩
  by_cases hown : isTerminalOp i = true ∨ i = .sysReset
  · obtain ⟨hram, h'⟩ := terminalOp_keeps_ram hown h m
    exact ⟨_, h', agreeOffShadow_of_kept h hp hram hbytes⟩
  by_cases hreach : reachesRamBy s i
  · exact agreeOffShadow_of_reachesRam hs ht hbytes hreach h
  · obtain ⟨hterm, hreset⟩ := not_or.1 hown
    have hsys : isSystemReset i = false := by simp [← Bool.not_eq_true, isSystemReset_iff, hp, hreset]
    obtain ⟨hram, bytes, hx, hb⟩ := (exec_blind h (by simpa using hterm) hsys hreach).spec h
    refine ⟨_, hb m s.term s.result, ?_⟩
    rw [← hx]
    exact agreeOffShadow_of_kept h hp hram hbytes

end

section
/-! PROOF. TERM.STEP commutes with every operation that is not the terminal's own (42_terminal.md section 4, D10). -/

namespace Sys2Proof.Machine

variable {s t u : State} {i : Instr}

/-- A step of a queue with a byte waiting does not see what comes to its back. -/
theorem Terminal.step_receive (g : GlyphTable) (bytes : List Byte) {t : Terminal} (h : t.queue ≠ []) :
    (t.receive none bytes).step g = (t.step g).receive none bytes := by
  cases hq : t.queue with
  | nil => exact absurd hq h
  | cons b q =>
    have hq' : ({ t with queue := t.queue ++ bytes } : Terminal).queue = b :: (q ++ bytes) := by simp [hq]
    rw [Terminal.receive_unbounded, Terminal.step_cons g hq', Terminal.step_cons g hq, Terminal.receive_unbounded,
      Terminal.process_queue]
    show ({ t with queue := q ++ bytes } : Terminal).process g b =
      { ({ t with queue := q } : Terminal).process g b with queue := q ++ bytes }
    rw [Terminal.process_setQueue g b t (q ++ bytes), Terminal.process_setQueue g b t q]

/-- An operation that is neither the terminal's own nor a reset gives the terminal bytes, whatever the terminal is. -/
theorem exec_gives_bytes (h : exec i s = .next u) (hi : isTerminalOp i = false) (hs : isSystemReset i = false) :
    ∃ bytes, u.term = s.term.receive s.cfg.queueCap bytes ∧
      ∀ x r, exec i (s.elsewhere s.ram x r) = .next (u.elsewhere u.ram (x.receive s.cfg.queueCap bytes) u.result) := by
  by_cases hreach : reachesRamBy s i
  · exact ⟨[], (exec_reachesRam hreach h s.term s.result).1, fun x r => (exec_reachesRam hreach h x r).2⟩
  · obtain ⟨hram, bytes, hx, hb⟩ := (exec_blind h hi hs hreach).spec h
    exact ⟨bytes, hx, fun x r => by rw [hram]; exact hb s.ram x r⟩

/-- A reset reads neither the terminal nor the result, and leaves the queue empty. -/
theorem exec_systemReset (hs : isSystemReset i = true) (h : exec i s = .next u) (x : Terminal) (r : Result) :
    u.term.queue = [] ∧ exec i (s.elsewhere s.ram x r) = .next u := by
  cases i <;> cases hs
  case sysPowerOn =>
    refine ⟨?_, (exec_sysPowerOn_elsewhere s.ram x r).trans h⟩
    cases hv : configValid s.cfg
    · rw [exec_sysPowerOn_invalid hv] at h; cases h
    · rw [exec_sysPowerOn_valid hv] at h; cases h; rfl
  case sysReset => cases h; exact ⟨rfl, rfl⟩

end Sys2Proof.Machine

open Sys2Proof Sys2Proof.Machine in
/-- Settles O41: a reset empties the queue in either order; any other operation appends bytes, which a step with a byte
waiting does not see. -/
theorem terminalStepCommutesWithTheOtherOperations : Obligations.TerminalStepCommutesWithTheOtherOperations := by
  intro i s t u hi hcap hq ht hu
  obtain rfl : s.elsewhere s.ram (s.term.step s.cfg.glyph) .nothing = t := by
    rw [exec_termStep, Host.Outcome.next.injEq] at ht; exact ht
  cases hs : isSystemReset i
  · obtain ⟨bytes, hx, hb⟩ := exec_gives_bytes hu hi hs
    refine ⟨_, _, hb _ _, exec_termStep, ?_, rfl⟩
    have hterm : (s.term.step s.cfg.glyph).receive s.cfg.queueCap bytes = u.term.step u.cfg.glyph := by
      rw [hx, (exec_cfg_pending hu).1, hcap, Terminal.step_receive _ bytes hq]
    rw [hterm]; rfl
  · obtain ⟨hempty, hb⟩ := exec_systemReset hs hu (s.term.step s.cfg.glyph) .nothing
    refine ⟨u, _, hb, exec_termStep, ?_, rfl⟩
    rw [Terminal.step_empty _ hempty]; rfl

end

section
/-! PROOF. The operand forms: the window by match and mask, the range of an image, the interrupt level, the classes of a
terminal byte, the default layout and the glyph file (30_encoding.md sections 2 and 3, 41_bus.md R110, 40_pia.md R91,
10_state.md R28, 42_terminal.md R141). -/

namespace Sys2Proof.Machine

/-! ## The window -/

/-- The upper mask takes off the address's last hexadecimal digit. -/
theorem toNat_and_fff0 (addr : Addr) : (addr &&& 0xFFF0#16).toNat = addr.toNat / 16 * 16 := by
  have hmask : ∀ i < 16, (0xFFF0#16).getLsbD i = decide (4 ≤ i) := by decide
  have hshift : addr &&& 0xFFF0#16 = (addr >>> 4) <<< 4 := by
    refine BitVec.eq_of_getLsbD_eq fun i hi => ?_
    rw [BitVec.getLsbD_and, hmask i hi, BitVec.getLsbD_shiftLeft, BitVec.getLsbD_ushiftRight]
    by_cases h : 4 ≤ i
    · have h4 : 4 + (i - 4) = i := by omega
      simp [h, hi, h4]
    · simp [h, Nat.lt_of_not_le h]
  have := addr.isLt
  rw [hshift, BitVec.toNat_shiftLeft, BitVec.toNat_ushiftRight, Nat.shiftRight_eq_div_pow, Nat.shiftLeft_eq]
  omega

/-- The window as match and mask (30_encoding.md R71). -/
theorem inWindow_iff_mask (addr : Addr) : inWindow addr = true ↔ addr &&& 0xFFF0#16 = 0xD010#16 := by
  rw [inWindow_iff, ← BitVec.toNat_inj, toNat_and_fff0]
  simp only [BitVec.reduceToNat]
  omega

/-- The mask of a register row is the window's mask and the selector's bits. -/
theorem and_fff3 (addr : Addr) : addr &&& 0xFFF3#16 = (addr &&& 0xFFF0#16) ||| (selector addr).setWidth 16 := by
  have hsel : (selector addr).setWidth 16 = addr &&& 0x3#16 := by
    have hmask : ∀ i < 16, (0x3#16).getLsbD i = decide (i < 2) := by decide
    refine BitVec.eq_of_getLsbD_eq fun i hi => ?_
    rw [BitVec.getLsbD_and, hmask i hi, selector, BitVec.getLsbD_setWidth, BitVec.getLsbD_setWidth]
    simp only [hi, decide_true, Bool.true_and, Bool.and_comm]
  have hmask : (0xFFF3#16 : Addr) = 0xFFF0#16 ||| 0x3#16 := by decide
  rw [hsel, hmask, BitVec.and_or_distrib_left]

/-- A register row as match and mask (30_encoding.md R72). -/
theorem windowRow_iff_mask (addr : Addr) (sel : BitVec 2) :
    windowRow addr sel = true ↔ addr &&& 0xFFF3#16 = 0xD010#16 + sel.setWidth 16 := by
  have hadd : ∀ sel : BitVec 2, 0xD010#16 ||| sel.setWidth 16 = 0xD010#16 + sel.setWidth 16 := by decide
  have hhigh : ∀ sel : BitVec 2, (0xD010#16 + sel.setWidth 16) &&& 0xFFF0#16 = 0xD010#16 := by decide
  have hlow : ∀ sel : BitVec 2, (0xD010#16 + sel.setWidth 16).setWidth 2 = sel := by decide
  rw [windowRow_iff, inWindow_iff_mask]
  constructor
  · rintro ⟨hw, rfl⟩
    rw [and_fff3, hw, hadd]
  · intro h
    constructor
    · rw [← hhigh sel, ← h, BitVec.and_assoc]; rfl
    · rw [← hlow sel, ← h, BitVec.setWidth_and, selector]
      exact BitVec.and_allOnes.symm

/-- The four mirrors of a register (30_encoding.md R72). -/
theorem windowRow_iff_mirror (addr : Addr) (sel : BitVec 2) :
    windowRow addr sel = true ↔ ∃ m : Fin 4, addr.toNat = 0xD010 + 4 * m.val + sel.toNat := by
  have hs := sel.isLt
  rw [windowRow_iff, inWindow_iff, ← BitVec.toNat_inj, selector, BitVec.toNat_setWidth]
  constructor
  · rintro ⟨⟨h1, h2⟩, h3⟩
    exact ⟨⟨(addr.toNat - 0xD010) / 4, by omega⟩, by simp only []; omega⟩
  · rintro ⟨m, hm⟩
    have := m.isLt
    omega

/-! ## The terminal's bytes -/

/-- The fold by value (42_terminal.md R133). -/
theorem foldByte_toNat (b : Byte) :
    (foldByte b).toNat = if 0x61 ≤ b.toNat ∧ b.toNat ≤ 0x7A then b.toNat - 0x20 else b.toNat := by
  revert b; decide

/-- A byte the fold does not take. -/
theorem foldByte_of_not {b : Byte} (h : ¬(0x61 ≤ b.toNat ∧ b.toNat ≤ 0x7A)) : foldByte b = b := if_neg h

/-- The class of a byte is a carriage return or printable by its value. -/
theorem byteClass_eq_cr_iff (b : Byte) : byteClass b = .cr ↔ b = 0x0D := by
  rw [byteClass_eq]
  split
  · next h => simp [h]
  · next h => split <;> exact iff_of_false (by simp) h
theorem byteClass_eq_print_iff (b : Byte) : byteClass b = .print ↔ 0x20 ≤ b.toNat ∧ b.toNat ≤ 0x5F := by
  rw [byteClass_eq]
  split
  · next h => subst h; simp
  · split <;> simp [*]

end Sys2Proof.Machine

open Sys2Proof Sys2Proof.Machine in
/-- Settles O3: each record evaluated. -/
theorem decodesTheBusTuplesOfThePrograms : Obligations.DecodesTheBusTuplesOfThePrograms := by
  unfold Obligations.DecodesTheBusTuplesOfThePrograms
  decide

open Sys2Proof Sys2Proof.Machine in
/-- Settles O4: the mask of a register row splits into the window's mask and the selector's two bits. -/
theorem windowRowsAreTheTablesMatchAndMask : Obligations.WindowRowsAreTheTablesMatchAndMask :=
  fun addr => ⟨inWindow_iff_mask addr, fun sel => ⟨windowRow_iff_mask addr sel, windowRow_iff_mirror addr sel⟩⟩

open Sys2Proof Sys2Proof.Machine in
/-- Settles O9: the effective length is the length, or what of it lies below the vectors. -/
theorem anImageClaimsItsRangeWithoutWrap : Obligations.AnImageClaimsItsRangeWithoutWrap := by
  intro img addr
  rw [claims_iff, claims_iff]
  constructor
  · rfl
  · have hlen : effLen true img = min img.bytes.length (0xFFFA - img.base.toNat) := rfl
    rw [hlen]
    omega

open Sys2Proof Sys2Proof.Machine in
/-- Settles O27: the level is one of two flags with its enable, which line 2 has as an input only. -/
theorem irqLevelIsAnEnabledPendingFlag : Obligations.IrqLevelIsAnEnabledPendingFlag := by
  intro s k
  rw [State.irqLevel, irqLevelOf, flag1_eq, flag2_eq, Bool.or_eq_true, Bool.and_eq_true, Bool.and_eq_true]
  cases (s.cfgOf k).c2Mode <;> simp

open Sys2Proof Sys2Proof.Machine in
/-- Settles O32: the fold takes 0x20 off a lowercase byte, and the class is one of the folded value. -/
theorem terminalByteClassesByOriginalValue : Obligations.TerminalByteClassesByOriginalValue := by
  intro b
  have hfold := foldByte_toNat b
  refine ⟨?_, ?_, fun h => by rw [hfold, if_pos h], foldByte_of_not⟩
  · rw [byteClass_eq_cr_iff, ← BitVec.toNat_inj, ← BitVec.toNat_inj, hfold]
    simp only [BitVec.reduceToNat]
    split <;> omega
  · rw [byteClass_eq_print_iff, hfold]
    split <;> omega

open Sys2Proof Sys2Proof.Machine in
/-- Settles O59: the table's entry at the six bits is the layout of those bits. -/
theorem defaultLayoutReadsEachConfigurationBit : Obligations.DefaultLayoutReadsEachConfigurationBit := by
  intro cr
  rw [decodeCfg_standardLayout]
  refine ⟨by simp [standardCfg], by simp [standardCfg, edgeOfBit], by simp [standardCfg], ?_⟩
  have h5 : (cr.setWidth 6).getLsbD 5 = cr.getLsbD 5 := by simp
  have h4 : (cr.setWidth 6).getLsbD 4 = cr.getLsbD 4 := by simp
  have h3 : (cr.setWidth 6).getLsbD 3 = cr.getLsbD 3 := by simp
  rw [standardCfg, h5, h4, h3]
  cases cr.getLsbD 5 <;> cases cr.getLsbD 4 <;> cases cr.getLsbD 3 <;> rfl

open Sys2Proof Sys2Proof.Machine in
/-- Settles O60: a loaded row is the file's byte reversed, and an inverted row its complement. -/
theorem loadedGlyphsReverseTheFilesBits : Obligations.LoadedGlyphsReverseTheFilesBits := by
  intro file v r k g
  have hk := k.isLt
  constructor
  · intro h
    have hrow : glyphPixel (glyphOf (loadGlyphs file) v) r k = (loadRow (file[8 * v.toNat + r.val]'h)).getLsbD (7 - k.val) := by
      simp [glyphPixel, glyphOf, loadGlyphs]
    have hback : 8 - 1 - (7 - k.val) = k.val := by omega
    rw [hrow, loadRow, BitVec.getLsbD_reverse, BitVec.getMsbD_eq_getLsbD, hback, decide_eq_true (by omega), Bool.true_and]
  · have h8 : 7 - k.val < 8 := by omega
    simp [glyphPixel, invertGlyph, h8]

end

section
/-! PROOF. The control lines, the keys and the resets (40_pia.md section 4, 43_keyboard.md, 70_reset_and_hazards.md). -/

namespace Sys2Proof.Machine

variable (s : State) (k : Section)

/-! ## Control lines -/

theorem exec_piaSetC1 (sig : Signal) : exec (.piaSetC1 k sig) s = .next ((setC1 k sig s).give .nothing) := rfl
theorem exec_piaSetC2 (sig : Signal) : exec (.piaSetC2 k sig) s = .next ((setC2 k sig s).give .nothing) := rfl

/-- Line 2 moved to the active edge of an input (40_pia.md R100). -/
theorem setC2_of_edge {sig : Signal} {enabled : Bool} (hm : (s.cfgOf k).c2Mode = .input sig enabled)
    (hne : sig ≠ (s.sec k).c2) :
    setC2 k sig s =
      { s.setSec k { s.sec k with c2 := sig, cr := setFlag2 (s.sec k).cr } with
        trace := s.trace ++
          (if irqLevelOf (s.cfgOf k) (setFlag2 (s.sec k).cr) then requestEvents s.cfg.irqRouting k else []) } := by
  simp only [setC2, hm, hne, ne_eq, not_false_eq_true, and_self, if_true]
  rw [activeC2_spec]
  cases k <;> rfl

/-- Line 2 not moved, or not to the active edge of an input (40_pia.md R100, D19). -/
theorem setC2_of_no_edge {sig : Signal} (h : sig = (s.sec k).c2 ∨ ∀ enabled, (s.cfgOf k).c2Mode ≠ .input sig enabled) :
    setC2 k sig s = s.setSec k { s.sec k with c2 := sig } := by
  unfold setC2
  cases hm : (s.cfgOf k).c2Mode with
  | input edge enabled =>
    refine if_neg fun ⟨hne, hedge⟩ => ?_
    rcases h with h | h
    · exact hne h
    · exact h enabled (hedge ▸ hm)
  | manual | handshake | pulse => rfl

/-! ## Keys -/

theorem exec_keyBatch (events : List KeyEvent) :
    exec (.keyBatch events) s = .next ((strobeIf (firstMatch s.cfg events) s).give .nothing) := rfl
theorem exec_keyDown (key : Nat) (shift : Bool) :
    exec (.keyDown key shift) s = .next ((strobeIf (acceptedCode s.cfg key shift) s).give .nothing) := rfl

/-- Events that match nothing are skipped (43_keyboard.md R153). -/
theorem firstMatch_append {cfg : Config} {before : List KeyEvent} (after : List KeyEvent)
    (h : ∀ d ∈ before, acceptedCode cfg d.key d.shift = none) : firstMatch cfg (before ++ after) = firstMatch cfg after := by
  rw [firstMatch, List.findSome?_append, List.findSome?_eq_none_iff.2 h]
  rfl

/-- The first event that matches decides (43_keyboard.md R153). -/
theorem firstMatch_cons {cfg : Config} {e : KeyEvent} (after : List KeyEvent)
    (h : (acceptedCode cfg e.key e.shift).isSome = true) :
    firstMatch cfg (e :: after) = acceptedCode cfg e.key e.shift := by
  obtain ⟨c, hc⟩ := Option.isSome_iff_exists.1 h
  rw [firstMatch, List.findSome?_cons, hc]

/-- The strobe keeps the parameters. -/
@[simp] theorem strobe_cfg (c : Byte) : (strobe c s).cfg = s.cfg := by rw [strobe_spec]
@[simp] theorem strobe_romClaims (c : Byte) (addr : Addr) : (strobe c s).romClaims addr = s.romClaims addr := by
  rw [strobe_spec]; rfl

/-! ## A cleared terminal -/

theorem glyphPixel_blankGlyph (p : Fin glyphRows) (q : Fin 8) : glyphPixel blankGlyph p q = false := by
  simp [glyphPixel, blankGlyph]

/-- Every pixel of a cleared surface is 0 (10_state.md R41, D11). -/
theorem glyphPixel_cleared {pix : CellArray Glyph}
    (h : pix = Vector.replicate gridRows (Vector.replicate gridCols blankGlyph)) (r : Fin gridRows) (c : Fin gridCols)
    (p : Fin glyphRows) (q : Fin 8) : glyphPixel (cellAt pix r c) p q = false := by
  rw [h, cellAt_replicate, glyphPixel_blankGlyph]

end Sys2Proof.Machine

open Sys2Proof Sys2Proof.Machine in
/-- Settles O29: the assignment's active case. -/
theorem activeLine1TransitionSetsFlag1AndRaisesLine2InHandshake :
    Obligations.ActiveLine1TransitionSetsFlag1AndRaisesLine2InHandshake := by
  intro s k sig hne hedge
  rw [exec_piaSetC1, setC1_spec, if_pos ⟨hne, hedge⟩]
  rfl

open Sys2Proof Sys2Proof.Machine in
/-- Settles O30: the assignment's active case. -/
theorem activeLine2TransitionSetsFlag2 : Obligations.ActiveLine2TransitionSetsFlag2 := by
  intro s k sig enabled hm hne
  rw [exec_piaSetC2, setC2_of_edge s k hm hne]
  rfl

open Sys2Proof Sys2Proof.Machine in
/-- Settles O31: the inactive cases of both assignments. -/
theorem inactiveLineAssignmentsMoveTheLineOnly : Obligations.InactiveLineAssignmentsMoveTheLineOnly := by
  intro s k sig
  constructor
  · intro h
    have hno : ¬(sig ≠ (s.sec k).c1 ∧ sig = (s.cfgOf k).c1Edge) := by tauto
    rw [exec_piaSetC1, setC1_spec, if_neg hno]
    rfl
  · intro h
    rw [exec_piaSetC2, setC2_of_no_edge s k h]
    rfl

open Sys2Proof Sys2Proof.Machine in
/-- Settles O43: the strobe is the four operations, through which the results given back between them pass. -/
theorem keyDownIsTheStrobeSequenceOrNothing : Obligations.KeyDownIsTheStrobeSequenceOrNothing := by
  intro s key shift
  constructor
  · intro c hc hlo hhi
    have hacc : acceptedCode s.cfg key shift = some c := (acceptedCode_iff _ _ _ _).2 ⟨hc, hlo, hhi⟩
    refine ⟨_, _, _, _, rfl, rfl, rfl, rfl, ?_⟩
    rw [exec_keyDown_accepted s hacc, strobe, latchedCode]
    simp only [setIn_give, setC1_give, State.give_give]
    rfl
  · intro h
    have hno : acceptedCode s.cfg key shift = none := by
      by_contra hne
      obtain ⟨c, hc⟩ := Option.ne_none_iff_exists'.1 hne
      obtain ⟨hl, hr⟩ := (acceptedCode_iff _ _ _ _).1 hc
      exact h c hl hr
    rw [exec_keyDown_ignored s hno]
    rfl

open Sys2Proof Sys2Proof.Machine in
/-- Settles O44: an accepted key is its strobe. -/
theorem acceptedKeyLatchesItsCodeAndSetsFlag1 : Obligations.AcceptedKeyLatchesItsCodeAndSetsFlag1 := by
  rintro s key shift c edge hacc rfl
  rw [exec_keyDown_accepted s hacc, strobe_spec]
  rfl

open Sys2Proof Sys2Proof.Machine in
/-- Settles O45: the batch's code is that of its first match. -/
theorem keyBatchIsItsFirstMatchingKey : Obligations.KeyBatchIsItsFirstMatchingKey := by
  intro s before after e hb
  constructor
  · intro he
    rw [exec_keyBatch, firstMatch_append _ hb, firstMatch_cons _ he, exec_keyDown]
  · have hnone : firstMatch s.cfg before = none := List.findSome?_eq_none_iff.2 hb
    rw [exec_keyBatch, hnone]
    rfl

open Sys2Proof Sys2Proof.Machine in
/-- Settles O46: each strobe sets flag 1 and the second replaces the input register, which the read then shows. -/
theorem secondKeyOverwritesAnUnreadKey : Obligations.SecondKeyOverwritesAnUnreadKey := by
  intro s key key' shift shift' c c' addr readOnly i hc hc' hi hr
  have ht := exec_keyDown_accepted s hc
  have hu : exec (.keyDown key' shift') ((strobe c s).give .nothing) =
      .next ((strobe c' ((strobe c s).give .nothing)).give .nothing) :=
    exec_keyDown_accepted _ (by simpa using hc')
  have hru : ((strobe c' ((strobe c s).give .nothing)).give .nothing).reachesPia addr (dataSel .a) :=
    ⟨by simpa using hr.1, hr.2⟩
  refine ⟨_, _, _, ht, hu, exec_busReadRows _ addr hi, ?_, ?_, ?_, ?_⟩
  · rw [State.give_secA, ← State.sec_a, strobe_sec, if_pos rfl]; exact flag1_setFlag1 _
  · rw [State.give_secA, ← State.sec_a, strobe_sec, if_pos rfl]; exact flag1_setFlag1 _
  · rw [busRead_of_pia _ addr hru, piaRead_dataSel, piaReadData_spec]; exact flag1_clearFlags _
  · rw [busRead_of_pia _ addr hru, piaRead_dataSel, piaReadData_spec, State.give_result, State.give_port, strobe_spec,
      strobe_spec]
    rfl

open Sys2Proof Sys2Proof.Machine in
/-- Settles O47: power-on's assignments, where the configuration is valid. -/
theorem powerOnEstablishesTheResetValues : Obligations.PowerOnEstablishesTheResetValues := by
  intro s
  refine ⟨fun hv => ⟨_, exec_sysPowerOn_valid hv, ?_⟩, exec_sysPowerOn_invalid⟩
  rw [powerOn_eq]
  refine ⟨fun k => by cases k <;> rfl, rfl, rfl, rfl, rfl, rfl, rfl, fun r c => cellAt_replicate _ r c,
    fun r c p q => glyphPixel_cleared rfl r c p q, rfl, rfl, rfl⟩

open Sys2Proof Sys2Proof.Machine in
/-- Settles O48: the reset's assignments. -/
theorem systemResetKeepsRamAndHistory : Obligations.SystemResetKeepsRamAndHistory := by
  intro s
  refine ⟨_, exec_sysReset, ?_⟩
  rw [systemReset_eq]
  refine ⟨fun k => by cases k <;> rfl, fun a => rfl, rfl, rfl, rfl, rfl, rfl, rfl, fun r c => cellAt_replicate _ r c,
    fun r c p q => glyphPixel_cleared rfl r c p q, rfl, rfl, rfl⟩

end

section
/-! PROOF. The terminal's own operations: the queue, a byte by its class, the drain and the clear (42_terminal.md). -/

namespace Sys2Proof.Machine

variable (g : GlyphTable) {t p : Terminal} {b : Byte}

/-! ## Drawing a cell -/

/-- The surface after a cell is drawn normally, or inverted (42_terminal.md R131). -/
theorem Terminal.cellAt_renderNormal (c : Cursor) (y : Fin gridRows) (x : Fin gridCols) :
    cellAt (t.renderNormal g c).pix y x =
      if y = c.y ∧ x = c.x then glyphOf g (cellAt t.grid y x) else cellAt t.pix y x := by
  rw [Terminal.renderNormal, cellAt_putCell]
  split
  · next h => rw [h.1, h.2]
  · rfl
theorem Terminal.cellAt_renderInv (c : Cursor) (y : Fin gridRows) (x : Fin gridCols) :
    cellAt (t.renderInv g c).pix y x =
      if y = c.y ∧ x = c.x then invertGlyph (glyphOf g (cellAt t.grid y x)) else cellAt t.pix y x := by
  rw [Terminal.renderInv, cellAt_putCell]
  split
  · next h => rw [h.1, h.2]
  · rfl

/-! ## A byte, by its class -/

/-- The terminal with its cursor cell erased, as a byte finds it (42_terminal.md R134). -/
def Terminal.erased (g : GlyphTable) (t : Terminal) : Terminal := t.renderNormal g t.cur

/-- The terminal with a byte stored at its cursor and rendered (42_terminal.md R135). -/
def Terminal.printed (g : GlyphTable) (b : Byte) (t : Terminal) : Terminal :=
  ({ t.erased g with grid := putCell t.grid t.cur.y t.cur.x b } : Terminal).renderNormal g t.cur

theorem Terminal.cellAt_erased_pix (r : Fin gridRows) (c : Fin gridCols) :
    cellAt (t.erased g).pix r c =
      if r = t.cur.y ∧ c = t.cur.x then glyphOf g (cellAt t.grid r c) else cellAt t.pix r c :=
  Terminal.cellAt_renderNormal g t.cur r c

theorem Terminal.cellAt_printed_grid (r : Fin gridRows) (c : Fin gridCols) :
    cellAt (t.printed g b).grid r c = if r = t.cur.y ∧ c = t.cur.x then b else cellAt t.grid r c :=
  cellAt_putCell t.grid t.cur.y r t.cur.x c b

theorem Terminal.cellAt_printed_pix (r : Fin gridRows) (c : Fin gridCols) :
    cellAt (t.printed g b).pix r c = if r = t.cur.y ∧ c = t.cur.x then glyphOf g b else cellAt t.pix r c := by
  rw [Terminal.printed, Terminal.cellAt_renderNormal]
  by_cases h : r = t.cur.y ∧ c = t.cur.x
  · simp only [if_pos h, cellAt_putCell]
  · simp only [if_neg h, Terminal.cellAt_erased_pix]

/-- A carriage return stores nothing and goes to the next row (42_terminal.md R135). -/
theorem Terminal.place_cr (h : byteClass b = .cr) : (t.erased g).place g b = ⟨t.erased g, 0, t.cur.y.val + 1⟩ := by
  simp only [Terminal.place, h]; rfl

/-- A printable byte is stored, rendered, and goes to the next column (42_terminal.md R135). -/
theorem Terminal.place_print (h : byteClass b = .print) :
    (t.erased g).place g b = ⟨t.printed g b, t.cur.x.val + 1, t.cur.y.val⟩ := by
  simp only [Terminal.place, h]; rfl

/-- Any other byte stores nothing and goes nowhere (D30). -/
theorem Terminal.place_ignored (h : byteClass b = .ignored) :
    (t.erased g).place g b = ⟨t.erased g, t.cur.x.val, t.cur.y.val⟩ := by
  simp only [Terminal.place, h]; rfl

theorem byteClass_eq_ignored (hcr : b ≠ 0x0D) (hp : ¬(0x20 ≤ b.toNat ∧ b.toNat ≤ 0x5F)) : byteClass b = .ignored := by
  rw [byteClass_eq, if_neg hcr, if_neg hp]

/-! ## A byte, by where the cursor goes -/

/-- Once the momentary cursor is in range, a byte ends with the cursor there, drawn inverted (42_terminal.md R138). -/
theorem Terminal.process_of_settled (x : Fin gridCols) (y : Fin gridRows)
    (h : overflowRow (wrapColumn ((t.erased g).place g (foldByte b))) = ⟨p, x.val, y.val⟩) :
    t.process g b = ({ p with cur := { x := x, y := y } } : Terminal).renderInv g { x := x, y := y } := by
  rw [Terminal.process_eq]
  show Terminal.renderInv g (settleCursor (overflowRow (wrapColumn ((t.erased g).place g (foldByte b))))).cur
    (settleCursor (overflowRow (wrapColumn ((t.erased g).place g (foldByte b))))) = _
  rw [h, settleCursor_at]

/-- After a byte that did not scroll: the cursor, the grid and the surface. -/
theorem Terminal.process_settled_spec (x : Fin gridCols) (y : Fin gridRows)
    (h : overflowRow (wrapColumn ((t.erased g).place g (foldByte b))) = ⟨p, x.val, y.val⟩) :
    (t.process g b).cur = { x := x, y := y } ∧ (t.process g b).grid = p.grid ∧
      ∀ r c, cellAt (t.process g b).pix r c =
        if r = y ∧ c = x then invertGlyph (glyphOf g (cellAt p.grid r c)) else cellAt p.pix r c := by
  rw [Terminal.process_of_settled g x y h]
  exact ⟨rfl, rfl, fun r c => Terminal.cellAt_renderInv g _ r c⟩

/-- Where the cursor goes after a printable byte that does not scroll (42_terminal.md R136). -/
theorem overflowRow_wrapColumn_next {c : Cursor} {x : Fin gridCols} {y : Fin gridRows}
    (h : x.val = c.x.val + 1 ∧ y = c.y ∨ c.x.val = 39 ∧ x.val = 0 ∧ y.val = c.y.val + 1) :
    overflowRow (wrapColumn ⟨p, c.x.val + 1, c.y.val⟩) = ⟨p, x.val, y.val⟩ := by
  have hx := x.isLt
  have hy := y.isLt
  simp only [gridCols, gridRows] at hx hy
  rcases h with ⟨h1, rfl⟩ | ⟨h1, h2, h3⟩
  · rw [wrapColumn_stay _ _ (by omega), overflowRow_stay _ _ (by omega), h1]
  · rw [wrapColumn_move _ _ (by omega), overflowRow_stay _ _ (by omega), h2, h3]

/-- Where it goes from the start of a row that there is. -/
theorem overflowRow_wrapColumn_stay (x : Fin gridCols) (y : Fin gridRows) :
    overflowRow (wrapColumn ⟨p, x.val, y.val⟩) = ⟨p, x.val, y.val⟩ := by
  rw [wrapColumn_stay _ _ x.isLt.ne, overflowRow_stay _ _ y.isLt.ne]

/-- Past the last row everything moves up (42_terminal.md R137). -/
theorem overflowRow_wrapColumn_scroll : overflowRow (wrapColumn ⟨p, 0, 24⟩) = ⟨p.scroll, 0, 23⟩ := by
  rw [wrapColumn_stay _ _ (by omega), overflowRow_scroll _ _ rfl]

/-- After a byte that scrolled: the cursor at the start of the blank last row, grid and surface moved up. -/
theorem Terminal.process_scrolled_spec
    (h : overflowRow (wrapColumn ((t.erased g).place g (foldByte b))) = ⟨p.scroll, 0, 23⟩) :
    (t.process g b).cur = { x := 0, y := 23 } ∧
      (∀ r c, cellAt (t.process g b).grid r c =
        if h : r.val + 1 < gridRows then cellAt p.grid ⟨r.val + 1, h⟩ c else spaceCode) ∧
      ∀ r c, cellAt (t.process g b).pix r c =
        if h : r.val + 1 < gridRows then cellAt p.pix ⟨r.val + 1, h⟩ c
        else if c = 0 then invertGlyph (glyphOf g spaceCode) else blankGlyph := by
  obtain ⟨hcur, hgrid, hpix⟩ := Terminal.process_settled_spec g (t := t) (b := b) (0 : Fin gridCols) (23 : Fin gridRows) h
  rw [Terminal.scroll_grid] at hgrid
  refine ⟨hcur, fun r c => by rw [hgrid, cellAt_scrollUp], fun r c => ?_⟩
  rw [hpix, Terminal.scroll_grid, Terminal.scroll_pix, cellAt_scrollUp, cellAt_scrollUp]
  by_cases hlast : r.val + 1 < gridRows
  · have hr : r ≠ 23 := by rintro rfl; simp [gridRows] at hlast
    rw [if_neg fun h => hr h.1, dif_pos hlast, dif_pos hlast]
  · have hr : r = 23 := by ext; have := r.isLt; simp only [gridRows] at *; omega
    simp only [dif_neg hlast]
    simp only [hr, true_and]

/-- The step of the byte at the front: what the byte does, with the byte gone from the queue. -/
theorem exec_termStep_cons {s : State} {rest : List Byte} (h : s.term.queue = b :: rest) :
    exec .termStep s =
      .next { s with term := { s.term.process s.cfg.glyph b with queue := rest }, result := .nothing } := by
  rw [exec_termStep, Terminal.step_cons _ h, Terminal.process_setQueue]
  rfl

end Sys2Proof.Machine

open Sys2Proof Sys2Proof.Machine in
/-- Settles O33: the enqueue touches the queue only, within its room and within its bound. -/
theorem enqueueAppendsAtTheBackOnly : Obligations.EnqueueAppendsAtTheBackOnly := by
  intro s v
  refine ⟨(s.term.enqueue s.cfg.queueCap v).queue, ?_, fun hroom => ?_, fun n hn hlen => ?_⟩
  · rw [exec_termEnq, enqueue, Terminal.enqueue_spec]; rfl
  · rw [Terminal.enqueue_of_room hroom]
  · exact Terminal.enqueue_within v (fun m hm => by rw [hn] at hm; cases hm; exact hlen) n hn

open Sys2Proof Sys2Proof.Machine in
/-- Settles O34: on an empty queue a step and a drain are the identity on the terminal. -/
theorem stepAndDrainOfAnEmptyQueueDoNothing : Obligations.StepAndDrainOfAnEmptyQueueDoNothing := by
  intro s h
  rw [exec_termStep, exec_termDrain, Terminal.step_empty _ h, Terminal.drain_empty _ h]
  exact ⟨rfl, rfl⟩

open Sys2Proof Sys2Proof.Machine in
/-- Settles O35: the byte is placed and the cursor goes on without a scroll, to another cell, whose code is as before. -/
theorem stepStoresAPrintableByteAndAdvances : Obligations.StepStoresAPrintableByteAndAdvances := by
  intro s b rest x' y' hq hlo hhi hnext
  have hplace := Terminal.place_print s.cfg.glyph (t := s.term) ((byteClass_eq_print_iff _).2 ⟨hlo, hhi⟩)
  obtain ⟨hcur, hgrid, hpix⟩ := Terminal.process_settled_spec s.cfg.glyph (t := s.term) x' y'
    (by rw [hplace, overflowRow_wrapColumn_next hnext])
  refine ⟨_, exec_termStep_cons hq, rfl, hcur, fun r c => ?_, fun r c => ?_⟩
  · rw [hgrid, Terminal.cellAt_printed_grid]
  · rw [hpix, Terminal.cellAt_printed_grid, Terminal.cellAt_printed_pix]
    have hmoved : y' = s.term.cur.y → x' ≠ s.term.cur.x := by
      rcases hnext with ⟨h, -⟩ | ⟨-, -, h⟩
      · intro _ e; rw [e] at h; omega
      · intro e; rw [e] at h; omega
    by_cases hnew : r = y' ∧ c = x'
    · rw [if_pos hnew, if_pos hnew, if_neg fun h => hmoved (hnew.1 ▸ h.1) (hnew.2 ▸ h.2)]
    · rw [if_neg hnew, if_neg hnew]

open Sys2Proof Sys2Proof.Machine in
/-- Settles O36: nothing is placed and the cursor goes to the start of a row that there is. -/
theorem stepTakesACarriageReturn : Obligations.StepTakesACarriageReturn := by
  intro s rest y' hq hnext
  have hplace := Terminal.place_cr s.cfg.glyph (t := s.term) (b := foldByte 0x0D) (by decide)
  obtain ⟨hcur, hgrid, hpix⟩ := Terminal.process_settled_spec s.cfg.glyph (t := s.term) 0 y'
    (by rw [hplace, ← hnext]; exact overflowRow_wrapColumn_stay 0 y')
  refine ⟨_, exec_termStep_cons hq, rfl, hcur, hgrid, fun r c => ?_⟩
  rw [hpix, Terminal.cellAt_erased_pix]
  rfl

open Sys2Proof Sys2Proof.Machine in
/-- Settles O37: nothing is placed and the cursor stays, so what was erased is drawn over. -/
theorem stepIgnoresOtherBytes : Obligations.StepIgnoresOtherBytes := by
  intro s b rest hq hcr hprint
  have hplace := Terminal.place_ignored s.cfg.glyph (t := s.term) (byteClass_eq_ignored hcr hprint)
  obtain ⟨hcur, hgrid, hpix⟩ := Terminal.process_settled_spec s.cfg.glyph (t := s.term) s.term.cur.x s.term.cur.y
    (by rw [hplace, overflowRow_wrapColumn_stay])
  refine ⟨_, exec_termStep_cons hq, rfl, hcur, hgrid, fun r c => ?_⟩
  rw [hpix, Terminal.cellAt_erased_pix]
  split
  · rfl
  · rfl

open Sys2Proof Sys2Proof.Machine in
/-- Settles O38: what the byte wrote moves up with everything else, and the cursor is drawn in the blank row. -/
theorem stepScrollsOnTheLastRow : Obligations.StepScrollsOnTheLastRow := by
  intro s b rest written hq hrow hcases
  obtain ⟨p, hp, hgrid, hpix⟩ : ∃ p : Terminal,
      overflowRow (wrapColumn ((s.term.erased s.cfg.glyph).place s.cfg.glyph (foldByte b))) = ⟨p.scroll, 0, 23⟩ ∧
      (∀ r c, cellAt p.grid r c = written r c) ∧
      ∀ r c, cellAt p.pix r c = if r = s.term.cur.y ∧ c = s.term.cur.x then glyphOf s.cfg.glyph (written r c)
        else cellAt s.term.pix r c := by
    rcases hcases with ⟨hcr, rfl⟩ | ⟨hlo, hhi, hcol, rfl⟩
    · refine ⟨s.term.erased s.cfg.glyph, ?_, fun r c => rfl, Terminal.cellAt_erased_pix _⟩
      rw [Terminal.place_cr _ ((byteClass_eq_cr_iff _).2 hcr), hrow, overflowRow_wrapColumn_scroll]
    · refine ⟨s.term.printed s.cfg.glyph (foldByte b), ?_, Terminal.cellAt_printed_grid _, fun r c => ?_⟩
      · rw [Terminal.place_print _ ((byteClass_eq_print_iff _).2 ⟨hlo, hhi⟩), hrow, hcol, wrapColumn_move _ _ rfl,
          overflowRow_scroll _ _ rfl]
      · rw [Terminal.cellAt_printed_pix]
        split
        · next h => simp only [if_pos h]
        · rfl
  obtain ⟨hcur, hgrid', hpix'⟩ := Terminal.process_scrolled_spec s.cfg.glyph hp
  refine ⟨_, exec_termStep_cons hq, rfl, hcur, fun r c => ?_, fun r c => ?_⟩
  · rw [hgrid']; simp only [hgrid]; rfl
  · rw [hpix']
    by_cases h : r.val + 1 < gridRows
    · have hcur : (⟨r.val + 1, h⟩ : Fin gridRows) = s.term.cur.y ↔ r.val = 22 := by
        rw [Fin.ext_iff, hrow]
        exact Nat.succ_inj
      rw [dif_pos h, dif_pos h, hpix]
      simp only [hcur]
    · rw [dif_neg h, dif_neg h]
      rfl

open Sys2Proof Sys2Proof.Machine in
/-- Settles O39: a drain is a step and a drain of what is left, until nothing is. -/
theorem drainIsStepsUntilTheQueueIsEmpty : Obligations.DrainIsStepsUntilTheQueueIsEmpty := by
  intro s
  refine ⟨⟨_, exec_termDrain, Terminal.drain_queue _ _⟩, fun hne => ⟨_, exec_termStep, ?_⟩⟩
  rw [exec_termDrain, exec_termDrain, Terminal.drain_step _ hne]
  rfl

open Sys2Proof Sys2Proof.Machine in
/-- Settles O40: the clear assigns grid, surface and cursor. -/
theorem clearBlanksGridAndSurfaceAndKeepsTheQueue : Obligations.ClearBlanksGridAndSurfaceAndKeepsTheQueue := by
  intro s
  exact ⟨_, exec_termClear, rfl, rfl, fun r c => cellAt_replicate _ r c, fun r c p q => glyphPixel_cleared rfl r c p q⟩

end
